-- ==== Sys2Proof/Config.lean ====
section
/-! DEFINITION. The fixed parameters of the unit (R1, R2). A model takes none of them as an argument.
The unit has no value that an implementation fixes for itself and no undefined result, so there is
no free value here: the one open parameter, `LATENCY` (R3), is how often a beat of the channels is
`busy` (`Sys2Proof.Machine.Beat`). -/

namespace Sys2Proof

/-- `NW`, words per counter (R1). -/
def Config.wordsPerCounter : Nat := 8

/-- `W`, bits per word (R1). -/
def Config.wordBits : Nat := 16

/-- Counter width `NW * W`, which is also the width of the command operand (R1, R2). -/
def Config.counterBits : Nat := Config.wordsPerCounter * Config.wordBits

/-- `BLK`, bytes per block (R1, R90). -/
def Config.blockBytes : Nat := 16

/-- `IVLEN`, the only legal length of an IV in bytes, in the width of the `LEN` field (R1, R65). -/
def Config.ivLength : BitVec 8 := 16

/-- Bits of the `LEN` field (R2, R65). -/
def Config.lenBits : Nat := 8

/-- Bits of a command header (R60). -/
def Config.headerBits : Nat := 16

end Sys2Proof
end

