-- ==== Sys2Proof/Word.lean ====
section
/-! DEFINITION. The data types of the Counter IV Engine: words, counters, commands and seek origins
(`00_scope.md` section 5, `10_state.md` section 2, `30_encoding.md` section 1). -/

namespace Sys2Proof

/-- One word of a counter: 16 bits (R1, R20). -/
abbrev Word := BitVec 16

/-- One byte of a 16-byte value (R40). -/
abbrev Byte := BitVec 8

/-- A Counter: 8 words of 16 bits, word 0 the most significant (R20, R21). That every word lies in
`[0, 65536)` (R23) holds by the type of a word. -/
structure Counter where
  w0 : Word
  w1 : Word
  w2 : Word
  w3 : Word
  w4 : Word
  w5 : Word
  w6 : Word
  w7 : Word
  deriving DecidableEq, Repr

/-- `C.w[i]`, the word of index `i` (0 = most significant), and word 7 for an index past the end. -/
def Counter.word (c : Counter) : Nat → Word
  | 0 => c.w0
  | 1 => c.w1
  | 2 => c.w2
  | 3 => c.w3
  | 4 => c.w4
  | 5 => c.w5
  | 6 => c.w6
  | _ => c.w7

/-- The eight exact word sums of one addition, carry in included, before each is narrowed to its
word and its carry (`sum` in the pseudocode of R82). -/
structure WordSums where
  s0 : Nat
  s1 : Nat
  s2 : Nat
  s3 : Nat
  s4 : Nat
  s5 : Nat
  s6 : Nat
  s7 : Nat
  deriving DecidableEq, Repr

/-- One command on the command channel: header and argument, 144 bits (R60, R61, R69). -/
structure Command where
  /-- `cmd_hdr[15:0]` -/
  hdr : BitVec 16
  /-- `cmd_arg[127:0]` -/
  arg : BitVec 128
  deriving DecidableEq, Repr

/-- The origin of a `SEEK`, one name for each value of `WH` (R64). -/
inductive Whence where
  /-- `0b00` -/
  | start
  /-- `0b01` -/
  | current
  /-- `0b10`, an unrecognised origin -/
  | unrecognised2
  /-- `0b11`, an unrecognised origin -/
  | unrecognised3
  deriving DecidableEq, Repr

end Sys2Proof
end

