-- ==== Sys2Proof/Syntax.lean ====
section
/-! DEFINITION. The commands of the unit, one constructor per row of `opcode_table.json`
(`30_encoding.md` section 2), each with exactly the fields its row uses: every other field of the
command word is ignored (R66) and has no place here. -/

namespace Sys2Proof

/-- The seven commands of R63. -/
inductive Instr where
  /-- `LOADIV len, iv`: construct an engine (R100). `len` is `LEN`, `iv` is `cmd_arg`. -/
  | loadiv (len : BitVec 8) (iv : BitVec 128)
  /-- `GETMODE` (R110) -/
  | getmode
  /-- `REQPAD` (R111) -/
  | reqpad
  /-- `SUPSEEK` (R112) -/
  | supseek
  /-- `GETIV` (R113) -/
  | getiv
  /-- `ADVANCE n` (R130). `bytes` is the unsigned byte count `cmd_arg`. -/
  | advance (bytes : BitVec 128)
  /-- `SEEK off, whence` (R135). `offset` is the two's complement byte offset `cmd_arg`. -/
  | seek (whence : Whence) (offset : BitVec 128)
  deriving DecidableEq, Repr

end Sys2Proof
end

