-- ==== Sys2Proof/Decode.lean ====
section
/-! DEFINITION. Decoding a command word, the encoder, and the command a word of `opcode_table.json`
stands for (`30_encoding.md`). The decoder is total: every command is one of the seven or is
rejected by the name of its reserved opcode (R68). -/

namespace Sys2Proof

/-- `OP = cmd_hdr[15:12]` (R60). -/
def opField (hdr : BitVec 16) : BitVec 4 := hdr.extractLsb' 12 4

/-- `WH = cmd_hdr[11:10]` (R60, R64). -/
def whField (hdr : BitVec 16) : BitVec 2 := hdr.extractLsb' 10 2

/-- `RSV = cmd_hdr[9:8]` (R60). Nothing reads it but statements that say so (R66). -/
def rsvField (hdr : BitVec 16) : BitVec 2 := hdr.extractLsb' 8 2

/-- `LEN = cmd_hdr[7:0]` (R60, R65). -/
def lenField (hdr : BitVec 16) : BitVec 8 := hdr.extractLsb' 0 8

/-- The origin a value of `WH` names (R64). -/
def whenceOf (wh : BitVec 2) : Whence :=
  match wh.toNat with
  | 0 => .start
  | 1 => .current
  | 2 => .unrecognised2
  | _ => .unrecognised3

/-- The value of `WH` that names an origin (R64). -/
def whenceBits : Whence → BitVec 2
  | .start => 0b00
  | .current => 0b01
  | .unrecognised2 => 0b10
  | .unrecognised3 => 0b11

/-- Why a command does not decode. -/
inductive DecodeError where
  /-- `OP` is `0x0` or `0x8` to `0xF` (R68). The unit answers it `ILLEGAL_CMD` (R165). -/
  | reservedOpcode (op : BitVec 4)
  deriving DecidableEq, Repr

/-- The opcode map (R63): `OP` alone decides, and each command takes only the fields it uses
(R64 to R67). -/
def decode (c : Command) : Except DecodeError Instr :=
  match (opField c.hdr).toNat with
  | 1 => .ok (.loadiv (lenField c.hdr) c.arg)
  | 2 => .ok .getmode
  | 3 => .ok .reqpad
  | 4 => .ok .supseek
  | 5 => .ok .getiv
  | 6 => .ok (.advance c.arg)
  | 7 => .ok (.seek (whenceOf (whField c.hdr)) c.arg)
  | _ => .error (.reservedOpcode (opField c.hdr))

/-- The opcode of a command (R63). -/
def opcodeOf : Instr → BitVec 4
  | .loadiv _ _ => 0x1
  | .getmode => 0x2
  | .reqpad => 0x3
  | .supseek => 0x4
  | .getiv => 0x5
  | .advance _ => 0x6
  | .seek _ _ => 0x7

/-- A header with `RSV = 0` (R60, R70). -/
def header (op : BitVec 4) (wh : BitVec 2) (len : BitVec 8) : BitVec 16 := op ++ wh ++ 0#2 ++ len

/-- The command word of an instruction, with 0 in every field it does not use (R70). -/
def encode (i : Instr) : Command :=
  match i with
  | .loadiv len iv => ⟨header (opcodeOf i) 0 len, iv⟩
  | .getmode => ⟨header (opcodeOf i) 0 0, 0⟩
  | .reqpad => ⟨header (opcodeOf i) 0 0, 0⟩
  | .supseek => ⟨header (opcodeOf i) 0 0, 0⟩
  | .getiv => ⟨header (opcodeOf i) 0 0, 0⟩
  | .advance bytes => ⟨header (opcodeOf i) 0 0, bytes⟩
  | .seek whence offset => ⟨header (opcodeOf i) (whenceBits whence) 0, offset⟩

/-- The command whose bits, numbered as `opcode_table.json` numbers them, are `w`: `cmd_hdr` is bits
15 to 0 and `cmd_arg` counts on from bit 16. Every bit from `nbits` up is 0. -/
def wordCommand (nbits w : Nat) : Command :=
  ⟨BitVec.ofNat 16 (w % 2 ^ nbits), BitVec.ofNat 128 ((w % 2 ^ nbits) >>> 16)⟩

/-- The instruction the decoder reads from a word of the opcode table. -/
def decodeTableWord (nbits w : Nat) : Option Instr :=
  match decode (wordCommand nbits w) with
  | .ok i => some i
  | .error _ => none

end Sys2Proof
end

