-- ==== Sys2Proof/Machine/Arith.lean ====
section
/-! DEFINITION. The datapath functions of `40_arithmetic.md` sections 1 and 2: splitting a value into
words, joining words, and the word-wise carry adder. They read and write no register (R87). -/

namespace Sys2Proof.Machine

open Sys2Proof

/-- `split(v).w[i] = v[127 - 16*i : 112 - 16*i]` (R80). -/
def split (v : BitVec 128) : Counter :=
  { w0 := v.extractLsb' 112 16
    w1 := v.extractLsb' 96 16
    w2 := v.extractLsb' 80 16
    w3 := v.extractLsb' 64 16
    w4 := v.extractLsb' 48 16
    w5 := v.extractLsb' 32 16
    w6 := v.extractLsb' 16 16
    w7 := v.extractLsb' 0 16 }

/-- `join(C)`: the words of `C` concatenated, word 0 most significant (R81). -/
def join (c : Counter) : BitVec 128 :=
  c.w0 ++ c.w1 ++ c.w2 ++ c.w3 ++ c.w4 ++ c.w5 ++ c.w6 ++ c.w7

/-- `sum = A.w[i] + B.w[i] + carry`, exact (R82). -/
def wordSum (a b : Word) (carry : Nat) : Nat := a.toNat + b.toNat + carry

/-- `carry = floor(sum / 65536)`, toward the next more significant word (R82). -/
def carryOf (sum : Nat) : Nat := sum / 65536

/-- `R.w[i] = sum mod 65536` (R82). -/
def wordOf (sum : Nat) : Word := BitVec.ofNat 16 (sum % 65536)

/-- The sums of the loop of R82, from word 7, with carry in 0, to word 0. -/
def wordSums (a b : Counter) : WordSums :=
  let s7 := wordSum a.w7 b.w7 0
  let s6 := wordSum a.w6 b.w6 (carryOf s7)
  let s5 := wordSum a.w5 b.w5 (carryOf s6)
  let s4 := wordSum a.w4 b.w4 (carryOf s5)
  let s3 := wordSum a.w3 b.w3 (carryOf s4)
  let s2 := wordSum a.w2 b.w2 (carryOf s3)
  let s1 := wordSum a.w1 b.w1 (carryOf s2)
  let s0 := wordSum a.w0 b.w0 (carryOf s1)
  { s0 := s0, s1 := s1, s2 := s2, s3 := s3, s4 := s4, s5 := s5, s6 := s6, s7 := s7 }

/-- `ADD128W(A, B)` (R82). The carry out of word 0, `carryOf s0`, is discarded. -/
def add128w (a b : Counter) : Counter :=
  let s := wordSums a b
  { w0 := wordOf s.s0
    w1 := wordOf s.s1
    w2 := wordOf s.s2
    w3 := wordOf s.s3
    w4 := wordOf s.s4
    w5 := wordOf s.s5
    w6 := wordOf s.s6
    w7 := wordOf s.s7 }

end Sys2Proof.Machine
end

