-- ==== Sys2Proof/Machine/State.lean ====
section
/-! DEFINITION. The state of the unit as plain data: the three registers (`10_state.md` section 2),
the command in flight and the pending response of the two channels (`10_state.md` section 4), and the
outside of the unit as data (the beats to come and the responses taken). The unit has no memory, no
program counter and no flags (R26, R27, R44), so none stands here. -/

namespace Sys2Proof.Machine

open Sys2Proof

/-- `rsp_status` (R160). The values 5 to 7 are never produced and have no name. -/
inductive Status where
  | ok
  | invalidInput
  | unsupported
  | noEngine
  | illegalCmd
  deriving DecidableEq, Repr

/-- `rsp_cause` (R160). The value 7 is never produced and has no name. -/
inductive Cause where
  | none
  | align
  | negAbs
  | negRel
  | whence
  | partialBlock
  | badLen
  deriving DecidableEq, Repr

/-- One response: status, cause and `rsp_data[127:0]` (R32, R62). -/
structure Response where
  status : Status
  cause  : Cause
  data   : BitVec 128
  deriving DecidableEq, Repr

/-- What the outside does in one beat of the channels: the input signals of `10_state.md` section 4,
and the open `LATENCY` (R3). DESIGN CHOICE (log entries 2 and 3). -/
structure Beat where
  /-- `rst` is asserted (R190). -/
  rst      : Bool
  /-- `cmd_valid` with the command offered (R33); `none` is `cmd_valid = 0`. Commands of several
  hosts share this one channel in whatever order (R54). -/
  offer    : Option Command
  /-- `rsp_ready`: the host can take the response (R33). -/
  rspReady : Bool
  /-- The command in flight, if there is one, is not finished in this beat (R3, R203). -/
  busy     : Bool
  deriving DecidableEq, Repr

/-- A beat in which the outside does nothing and a command in flight finishes. -/
def Beat.idle : Beat := { rst := false, offer := .none, rspReady := false, busy := false }

/-- The state of the machine. -/
structure State where
  /-- `BASE`, the Base IV (R20). -/
  base     : Counter
  /-- `OFS`, the Offset Counter (R21, R22). -/
  ofs      : Counter
  /-- `VALID`, an engine exists (R24). -/
  valid    : Bool
  /-- The command accepted and not yet answered, at most one (R33). -/
  inFlight : Option Command
  /-- The response offered and not yet taken; `none` is `rsp_valid = 0` (R32, R33). -/
  rsp      : Option Response
  /-- The model's own: the beats of the outside still to come, the next first; when there is none
  left the outside is idle. -/
  inputs   : List Beat
  /-- The model's own: the responses the host has taken, oldest first (R200). -/
  taken    : List Response
  deriving DecidableEq, Repr

/-- There is no fault: no behaviour of the unit stops it, since every error is the response of the
command that caused it (R161 to R163, R171). Nobody can raise one; that is safe. -/
inductive Fault where
  deriving DecidableEq, Repr

/-- Why the model has no meaning for a command. -/
inductive Refusal where
  /-- Raised only by an arm of `exec` for an instruction that has no meaning yet; safe. No arm is left
  that raises it. -/
  | notModelled (mnemonic : String)
  deriving DecidableEq, Repr

/-- The counter whose words are all 0. -/
def zeroCounter : Counter := ⟨0, 0, 0, 0, 0, 0, 0, 0⟩

/-- The machine right after reset (R35): `VALID = 0`, `BASE = 0`, `OFS = 0`, no command in flight and
no response pending. The outside is empty. DESIGN CHOICE (log entry 7: `inputs` and `taken`). -/
def State.reset : State :=
  { base := zeroCounter
    ofs := zeroCounter
    valid := false
    inFlight := .none
    rsp := .none
    inputs := []
    taken := [] }

end Sys2Proof.Machine
end

