-- ==== Sys2Proof/Machine/Ops.lean ====
section
/-! DEFINITION. The named operations on the state: producing a response (R32), raising an error, which
is what this unit has in place of taking an exception (R161; there is no return from one, R163), the
register writes of the commands, and the transfers and reset of the two channels (R33, R190). -/

namespace Sys2Proof.Machine

open Sys2Proof

/-- `respond(status, cause, data)`: the command in flight is over and its response is offered
(R32). -/
def respond (status : Status) (cause : Cause) (data : BitVec 128) (s : State) : State :=
  { s with inFlight := .none, rsp := some { status := status, cause := cause, data := data } }

/-- `raise S(C)`: no state change and `respond(S, C, 0)` (R161, R162). -/
def raise (status : Status) (cause : Cause) (s : State) : State := respond status cause 0 s

/-- The register writes of a successful construction: `BASE`, `OFS` to zero, `VALID` to 1
(R100, R102). -/
def construct (iv : BitVec 128) (s : State) : State :=
  { s with base := split iv, ofs := split 0, valid := true }

/-- `OFS <- c` (R21). -/
def writeOfs (c : Counter) (s : State) : State := { s with ofs := c }

/-- `VALID = 0`: the check of the commands that need an engine (R24, R166). -/
def noEngine (s : State) : Bool := !s.valid

/-- The Current IV, computed anew from the two counters and never stored (R28, R113). -/
def currentIv (s : State) : BitVec 128 := join (add128w s.base s.ofs)

/-- What the outside does in this beat; idle where no beat is listed. -/
def currentBeat (s : State) : Beat := s.inputs.headD Beat.idle

/-- The beat is over. -/
def nextBeat (s : State) : State := { s with inputs := s.inputs.tail }

/-- `cmd_ready`: no command in flight and the last response taken (R33, R200).
DEDUCED (log entry 6). -/
def cmdReady (s : State) : Bool := s.inFlight.isNone && s.rsp.isNone

/-- `rsp_valid`: a response is offered (R33). -/
def rspValid (s : State) : Bool := s.rsp.isSome

/-- The transfer of a command (R33). -/
def acceptCommand (c : Command) (s : State) : State := { s with inFlight := some c }

/-- The transfer of a response to the host, which is the observable event of a run (R33, R200). -/
def deliverResponse (r : Response) (s : State) : State :=
  { s with rsp := .none, taken := s.taken ++ [r] }

/-- `rst`: the reset state of R35, whatever was in flight or pending (R190, R191). What is outside the
unit (the beats to come, the responses already taken) is not reset. -/
def assertReset (s : State) : State :=
  { State.reset with inputs := s.inputs, taken := s.taken }

end Sys2Proof.Machine
end

