-- ==== Sys2Proof/Machine/Accessors.lean ====
section
/-! DEFINITION. The accessors: the meanings of `GETMODE`, `REQPAD`, `SUPSEEK` and `GETIV`
(`42_accessors.md`). The three properties are constants of the hardware, not registers (R29). -/

namespace Sys2Proof.Machine

/-- `MODE_CTR = 0x01`, 8 bits (R29, R110). -/
def modeTag : BitVec 8 := 0x01

/-- Counter mode needs no block padding (R111). -/
def paddingAnswer : BitVec 1 := 0

/-- Counter mode supports arbitrary block-aligned seeking (R112). -/
def seekingAnswer : BitVec 1 := 1

/-- `GETMODE` (R110); it does not read `VALID`. -/
def execGetmode (s : State) : Host.Outcome State Fault Refusal :=
  .next (respond .ok .none (modeTag.setWidth 128) s)

/-- `REQPAD` (R111); it does not read `VALID`. -/
def execReqpad (s : State) : Host.Outcome State Fault Refusal :=
  .next (respond .ok .none (paddingAnswer.setWidth 128) s)

/-- `SUPSEEK` (R112); it does not read `VALID`. -/
def execSupseek (s : State) : Host.Outcome State Fault Refusal :=
  .next (respond .ok .none (seekingAnswer.setWidth 128) s)

/-- `GETIV` (R113). -/
def execGetiv (s : State) : Host.Outcome State Fault Refusal :=
  if noEngine s then .next (raise .noEngine .none s)
  else .next (respond .ok .none (currentIv s) s)

end Sys2Proof.Machine
end

