-- ==== Sys2Proof/Machine/Operands.lean ====
section
/-! DEFINITION. What an operand stands for: the bytes of a 16-byte value (`20_memory.md` section 1),
the block counts of a byte count and a byte offset (`40_arithmetic.md` section 3), and the checks a
`SEEK` makes of its operands (`43_advance_seek.md` section 2). -/

namespace Sys2Proof.Machine

open Sys2Proof

/-- Byte `j` of a 16-byte value on a channel, `v[127 - 8*j : 120 - 8*j]` for `j` in `0..15` (R42). -/
def byteOf (v : BitVec 128) (j : Nat) : Byte := v.extractLsb' (120 - 8 * j) 8

/-- The 16 bytes of a value in transmission order, byte 0 first (R40). -/
def bytesOf (v : BitVec 128) : List Byte := (List.range 16).map (byteOf v)

/-- The value of a list of bytes, the first the most significant (R40). -/
def bytesValue (bs : List Byte) : Nat := bs.foldl (fun acc b => acc * 256 + b.toNat) 0

/-- `PARTIAL(BYTES) = (BYTES[3:0] != 0)` (R88). -/
def isPartial (bytes : BitVec 128) : Bool := bytes.extractLsb' 0 4 != 0

/-- `zext_128(NB(BYTES))`, with `NB(BYTES) = BYTES[127:4] + (1 if BYTES[3:0] != 0 else 0)` (R88). -/
def advanceBlocks (bytes : BitVec 128) : BitVec 128 :=
  (bytes.extractLsb' 4 124).setWidth 128 + (if isPartial bytes then 1 else 0)

/-- `zext_128(NS(OFFSET))`, with `NS(OFFSET) = cmd_arg[126:4]` (R89). -/
def seekBlocks (offset : BitVec 128) : BitVec 128 := (offset.extractLsb' 4 123).setWidth 128

/-- The cause for which a `SEEK` is refused, the first check that fails: alignment, origin, sign
(R135, R136, R164). `none` where it is accepted. -/
def seekRefusal (whence : Whence) (offset : BitVec 128) : Option Cause :=
  if offset.extractLsb' 0 4 != 0 then some .align
  else
    match whence with
    | .unrecognised2 => some .whence
    | .unrecognised3 => some .whence
    | .start => if offset.msb then some .negAbs else .none
    | .current => if offset.msb then some .negRel else .none

end Sys2Proof.Machine
end

