-- ==== Sys2Proof/Machine/Flags.lean ====
section
/-! DEFINITION. The unit has no flags, no condition codes and no carry flag (R27). What a command
reports of itself is the status and the cause of its one response: their codes, and the one cause
that depends on a computation, `PARTIAL` (`60_exceptions.md` section 1). -/

namespace Sys2Proof.Machine

/-- `rsp_status[2:0]` (R160). -/
def statusBits : Status → BitVec 3
  | .ok => 0
  | .invalidInput => 1
  | .unsupported => 2
  | .noEngine => 3
  | .illegalCmd => 4

/-- `rsp_cause[2:0]` (R160). -/
def causeBits : Cause → BitVec 3
  | .none => 0
  | .align => 1
  | .negAbs => 2
  | .negRel => 3
  | .whence => 4
  | .partialBlock => 5
  | .badLen => 6

/-- The cause an `ADVANCE` that has been made reports (R130, R131, R169). -/
def advanceCause (bytes : BitVec 128) : Cause :=
  if isPartial bytes then .partialBlock else .none

end Sys2Proof.Machine
end

