-- ==== Sys2Proof/Machine/AdvanceSeek.lean ====
section
/-! DEFINITION. Moving the Offset Counter: the meanings of `ADVANCE` and `SEEK`
(`43_advance_seek.md`). Both only add; the unit has no subtraction (R86). -/

namespace Sys2Proof.Machine

open Sys2Proof

/-- `ADVANCE n` (R130, R131): any byte count, rounded up to whole blocks. -/
def execAdvance (bytes : BitVec 128) (s : State) : Host.Outcome State Fault Refusal :=
  if noEngine s then .next (raise .noEngine .none s)
  else
    .next (respond .ok (advanceCause bytes) 0
      (writeOfs (add128w s.ofs (split (advanceBlocks bytes))) s))

/-- The new Offset Counter of an accepted `SEEK` (R135): from zero for `START`, from the old value
for `CURRENT`. An unrecognised origin is never accepted (R136). -/
def seekTarget (whence : Whence) (offset : BitVec 128) (ofs : Counter) : Counter :=
  match whence with
  | .start => add128w (split 0) (split (seekBlocks offset))
  | .current => add128w ofs (split (seekBlocks offset))
  | .unrecognised2 => ofs
  | .unrecognised3 => ofs

/-- `SEEK off, whence` (R135, R136): every check comes before the write. -/
def execSeek (whence : Whence) (offset : BitVec 128) (s : State) :
    Host.Outcome State Fault Refusal :=
  if noEngine s then .next (raise .noEngine .none s)
  else
    match seekRefusal whence offset with
    | some cause => .next (raise .unsupported cause s)
    | .none => .next (respond .ok .none 0 (writeOfs (seekTarget whence offset s.ofs) s))

end Sys2Proof.Machine
end

