-- ==== Sys2Proof/Machine/Construction.lean ====
section
/-! DEFINITION. Construction: the meaning of `LOADIV` (`41_construction.md`). -/

namespace Sys2Proof.Machine

open Sys2Proof

/-- `LOADIV len, iv` (R100 to R103): the length is checked before anything is written, with or without
an engine. -/
def execLoadiv (len : BitVec 8) (iv : BitVec 128) (s : State) :
    Host.Outcome State Fault Refusal :=
  if len != Config.ivLength then .next (raise .invalidInput .badLen s)
  else .next (respond .ok .none 0 (construct iv s))

end Sys2Proof.Machine
end

