-- ==== Sys2Proof/Machine/Dispatch.lean ====
section
/-! DEFINITION. The meaning of each command, one arm per constructor of `Instr` (R63). -/

namespace Sys2Proof.Machine

open Sys2Proof

def exec (i : Instr) (s : State) : Host.Outcome State Fault Refusal :=
  match i with
  | .loadiv len iv => Sys2Proof.Machine.execLoadiv len iv s
  | .getmode => Sys2Proof.Machine.execGetmode s
  | .reqpad => Sys2Proof.Machine.execReqpad s
  | .supseek => Sys2Proof.Machine.execSupseek s
  | .getiv => Sys2Proof.Machine.execGetiv s
  | .advance bytes => Sys2Proof.Machine.execAdvance bytes s
  | .seek whence offset => Sys2Proof.Machine.execSeek whence offset s

end Sys2Proof.Machine
end

