-- ==== Sys2Proof/Machine/Channel.lean ====
section
/-! DEFINITION. One beat of the two channels (`10_state.md` section 4, `70_reset_and_hazards.md`
section 1): reset, the running of the command in flight, the transfer of a response, the transfer
of a command. A command is decoded and run whole in one beat (R48). -/

namespace Sys2Proof.Machine

open Sys2Proof

/-- Runs a command: the decode check comes first, and an opcode that spells no command is answered
`ILLEGAL_CMD`/`NONE` (R164, R165). -/
def runCommand (c : Command) (s : State) : Host.Outcome State Fault Refusal :=
  match decode c with
  | .ok i => exec i s
  | .error _ => .next (raise .illegalCmd .none s)

/-- The two transfers of a unit with no command in flight (R33): a pending response must be taken
before the next command is accepted. PRESUMED (log entry 4: a transfer needs valid and ready in the
same beat). -/
def transfer (b : Beat) (s : State) : State :=
  match s.rsp with
  | some r => if b.rspReady then deliverResponse r s else s
  | .none =>
    match b.offer with
    | some c => acceptCommand c s
    | .none => s

/-- What the unit does in a beat `b`. Reset dominates (R191). DESIGN CHOICE (log entry 5: also over a
transfer in the same beat). -/
def serveBeat (b : Beat) (s : State) : Host.Outcome State Fault Refusal :=
  if b.rst then .next (assertReset s)
  else
    match s.inFlight with
    | some c => if b.busy then .next s else runCommand c s
    | .none => .next (transfer b s)

end Sys2Proof.Machine
end

