-- ==== Sys2Proof/Machine/Step.lean ====
section
/-! DEFINITION. The step of the machine: one beat of its channels. -/

namespace Sys2Proof.Machine

open Sys2Proof

/-- One beat: the unit does what the beat at the head of `inputs` lets it do, and the beat is over. -/
def step (s : State) : Host.Outcome State Fault Refusal :=
  serveBeat (currentBeat s) (nextBeat s)

/-- `s` with the command of a table word accepted, no response pending and nothing happening outside
in the next beat, so that the next step runs that command. The unit fetches nothing (R26): a command
comes from the host, and this stands for the host's offering it and the unit's accepting it (log
entry 7). -/
def State.withFetchWord (s : State) (nbits w : Nat) : State :=
  { s with
    inFlight := some (wordCommand nbits w)
    rsp := .none
    inputs := Beat.idle :: s.inputs }

end Sys2Proof.Machine
end

