-- ==== Sys2Proof/WellFormed.lean ====
section
/-! DEFINITION. What is well formed. Every term of `Instr` is: its operands have exactly the width of
their fields, and each field may hold every value (a length other than 16 or an unrecognised origin
decodes, and is refused when it is executed: R64, R65). What can be ill formed is a LINE of the
assembler (R70), whose operands are numbers of any size; this file holds the lines and their check. -/

namespace Sys2Proof

/-- The origin written in a `SEEK` line (R70): a name, or the number of an unrecognised origin. -/
inductive LineWhence where
  | start
  | current
  | number (w : Nat)
  deriving DecidableEq, Repr

/-- One line of the assembler, one constructor per row of the table of R70, and `UPDATE` (R71). -/
inductive AsmLine where
  /-- `LOADIV len, iv`, or `LOADIV iv` where no length is written -/
  | loadiv (len : Option Nat) (iv : Nat)
  | getmode
  | reqpad
  | supseek
  | getiv
  | advance (n : Nat)
  /-- the pseudo-command of R71 -/
  | update (n : Nat)
  | seek (off : Int) (whence : LineWhence)
  /-- `.cmd hdr, arg`: the raw command -/
  | cmd (hdr arg : Nat)
  deriving DecidableEq, Repr

/-- The origins a line may name: `START`, `CURRENT`, 2 and 3 (R70). -/
def LineWhence.wellFormed : LineWhence → Bool
  | .start => true
  | .current => true
  | .number w => w == 2 || w == 3

/-- The ranges R70 gives the operands of each line. -/
def AsmLine.wellFormed : AsmLine → Bool
  | .loadiv len iv =>
    decide (len.getD 16 < 2 ^ Config.lenBits) && decide (iv < 2 ^ Config.counterBits)
  | .getmode => true
  | .reqpad => true
  | .supseek => true
  | .getiv => true
  | .advance n => decide (n < 2 ^ Config.counterBits)
  | .update n => decide (n < 2 ^ Config.counterBits)
  | .seek off whence =>
    decide (-(2 : Int) ^ 127 ≤ off) && decide (off < (2 : Int) ^ 127) && whence.wellFormed
  | .cmd hdr arg => decide (hdr < 2 ^ Config.headerBits) && decide (arg < 2 ^ Config.counterBits)

end Sys2Proof
end

