-- ==== Sys2Proof/Machine/Assembler.lean ====
section
/-! DEFINITION. The assembler of `30_encoding.md` section 6: the command of each line (R70, R71), the
listing of a command (R61), and the reading of a line of text. It is no part of the unit; it fixes
how a command is written. -/

namespace Sys2Proof.Machine

open Sys2Proof

/-- The number of a written origin: `START` is 0 and `CURRENT` is 1 (R70). -/
def lineOrigin : LineWhence → Nat
  | .start => 0
  | .current => 1
  | .number w => w

/-- The column "encodes as" of R70, and `UPDATE n` as `ADVANCE n` (R71). -/
def lineCommand : AsmLine → Command
  | .loadiv len iv => ⟨BitVec.ofNat 16 (0x1000 + len.getD 16), BitVec.ofNat 128 iv⟩
  | .getmode => ⟨0x2000, 0⟩
  | .reqpad => ⟨0x3000, 0⟩
  | .supseek => ⟨0x4000, 0⟩
  | .getiv => ⟨0x5000, 0⟩
  | .advance n => ⟨0x6000, BitVec.ofNat 128 n⟩
  | .update n => ⟨0x6000, BitVec.ofNat 128 n⟩
  | .seek off whence => ⟨BitVec.ofNat 16 (0x7000 + lineOrigin whence * 0x400), BitVec.ofInt 128 off⟩
  | .cmd hdr arg => ⟨BitVec.ofNat 16 hdr, BitVec.ofNat 128 arg⟩

/-- The command of a line. DESIGN CHOICE (log entry 8): a line with an operand out of its range
assembles to nothing. -/
def assemble (l : AsmLine) : Option Command := if l.wellFormed then some (lineCommand l) else none

/-- A piece of a line of text. -/
inductive Token where
  | word (chars : List Char)
  | comma
  deriving DecidableEq, Repr

/-- The word read so far, if any. -/
def wordToken (chars : List Char) : List Token := if chars.isEmpty then [] else [.word chars]

/-- The pieces of a line: `;` starts a comment (R70). DESIGN CHOICE (log entry 8): spaces and tabs
separate words. -/
def tokens (read : List Char) : List Char → List Token
  | [] => wordToken read
  | c :: cs =>
    if c = ';' then wordToken read
    else if c = ' ' ∨ c = '\t' then wordToken read ++ tokens [] cs
    else if c = ',' then wordToken read ++ Token.comma :: tokens [] cs
    else tokens (read ++ [c]) cs

/-- The value of a digit, in either letter case. -/
def digitValue (c : Char) : Option Nat :=
  let n := c.toNat
  if 48 ≤ n ∧ n ≤ 57 then some (n - 48)
  else if 97 ≤ n ∧ n ≤ 102 then some (n - 87)
  else if 65 ≤ n ∧ n ≤ 70 then some (n - 55)
  else none

/-- Digits in a base, after the value read so far. -/
def readDigits (radix value : Nat) : List Char → Option Nat
  | [] => some value
  | c :: cs =>
    match digitValue c with
    | some d => if d < radix then readDigits radix (value * radix + d) cs else none
    | none => none

/-- A number: decimal, or hexadecimal after `0x` (R70). -/
def readNumber : List Char → Option Nat
  | [] => none
  | ['0', 'x'] => none
  | '0' :: 'x' :: cs => readDigits 16 0 cs
  | c :: cs => readDigits 10 0 (c :: cs)

/-- A number that may be negative, written with `-` (R70). -/
def readSigned : List Char → Option Int
  | '-' :: cs => (readNumber cs).map fun n => -(n : Int)
  | cs => (readNumber cs).map fun n => (n : Int)

/-- The origin of a `SEEK` line (R70). -/
def readOrigin (w : List Char) : Option LineWhence :=
  if w = ['S', 'T', 'A', 'R', 'T'] then some .start
  else if w = ['C', 'U', 'R', 'R', 'E', 'N', 'T'] then some .current
  else (readNumber w).map LineWhence.number

/-- A line with no operand. -/
def readPlain (w : List Char) : Option AsmLine :=
  if w = ['G', 'E', 'T', 'M', 'O', 'D', 'E'] then some .getmode
  else if w = ['R', 'E', 'Q', 'P', 'A', 'D'] then some .reqpad
  else if w = ['S', 'U', 'P', 'S', 'E', 'E', 'K'] then some .supseek
  else if w = ['G', 'E', 'T', 'I', 'V'] then some .getiv
  else none

/-- A line with one operand. -/
def readUnary (w a : List Char) : Option AsmLine :=
  if w = ['L', 'O', 'A', 'D', 'I', 'V'] then (readNumber a).map (AsmLine.loadiv none)
  else if w = ['A', 'D', 'V', 'A', 'N', 'C', 'E'] then (readNumber a).map AsmLine.advance
  else if w = ['U', 'P', 'D', 'A', 'T', 'E'] then (readNumber a).map AsmLine.update
  else none

/-- A line with two operands. -/
def readBinary (w a b : List Char) : Option AsmLine :=
  if w = ['L', 'O', 'A', 'D', 'I', 'V'] then
    match readNumber a, readNumber b with
    | some len, some iv => some (.loadiv (some len) iv)
    | _, _ => none
  else if w = ['S', 'E', 'E', 'K'] then
    match readSigned a, readOrigin b with
    | some off, some whence => some (.seek off whence)
    | _, _ => none
  else if w = ['.', 'c', 'm', 'd'] then
    match readNumber a, readNumber b with
    | some hdr, some arg => some (.cmd hdr arg)
    | _, _ => none
  else none

/-- What a line of text holds. -/
inductive LineText where
  /-- nothing but blanks or a comment -/
  | empty
  | line (l : AsmLine)
  /-- no line of R70 -/
  | unreadable
  deriving DecidableEq, Repr

/-- The syntax of R70, one command a line. DESIGN CHOICE (log entry 8): mnemonics and origins are
written in the letters R70 writes them in. -/
def readLine (text : List Char) : LineText :=
  let read : Option AsmLine → LineText
    | some l => .line l
    | none => .unreadable
  match tokens [] text with
  | [] => .empty
  | [.word w] => read (readPlain w)
  | [.word w, .word a] => read (readUnary w a)
  | [.word w, .word a, .comma, .word b] => read (readBinary w a b)
  | _ => .unreadable

/-- A hexadecimal digit, as the listings of `95_test_vectors.md` write it. -/
def hexDigit (n : Nat) : Char := if n < 10 then Char.ofNat (48 + n) else Char.ofNat (87 + n)

/-- `n` hexadecimal digits, the most significant first. -/
def hexDigits : Nat → Nat → List Char
  | 0, _ => []
  | n + 1, v => hexDigits n (v / 16) ++ [hexDigit (v % 16)]

/-- The listing `HDR:ARG` of a command (R60, R61). -/
def listing (c : Command) : List Char :=
  hexDigits 4 c.hdr.toNat ++ ':' :: hexDigits 32 c.arg.toNat

end Sys2Proof.Machine
end

