-- ==== Sys2Proof/Safety.lean ====
section
/-! DEFINITION. The terms the claims are stated in: what a legal response and a sound state are, the
state machine of R139 written a second time over 128-bit integers, a host that calls the unit, the
commands a run accepts, the end of a run, and the host's duty of R196. Nothing of it takes part in a
step. -/

namespace Sys2Proof.Safety

open Sys2Proof
open Sys2Proof.Machine

/-- The pairs of status and cause the unit produces (R160, R170), with data 0 for every response that
is not `OK` or that reports `PARTIAL` (R62). -/
def legalResponse (r : Response) : Bool :=
  match r.status, r.cause with
  | .ok, .none => true
  | .ok, .partialBlock => r.data == 0
  | .invalidInput, .badLen => r.data == 0
  | .unsupported, .align => r.data == 0
  | .unsupported, .negAbs => r.data == 0
  | .unsupported, .negRel => r.data == 0
  | .unsupported, .whence => r.data == 0
  | .noEngine, .none => r.data == 0
  | .illegalCmd, .none => r.data == 0
  | _, _ => false

/-- The invariant of the machine: at most one command is in flight and none while a response is
pending (R33), and every response pending or taken is one the unit produces (R170). -/
def sound (s : State) : Bool :=
  (s.inFlight.isNone || s.rsp.isNone) && s.rsp.all legalResponse && s.taken.all legalResponse

/-- The unit as the table of R139 sees it: `VALID`, and the two counters as 128-bit integers. -/
structure TableUnit where
  valid : Bool
  base  : BitVec 128
  ofs   : BitVec 128
  deriving DecidableEq, Repr

/-- What the table sees of a state. -/
def tableView (s : State) : TableUnit :=
  { valid := s.valid, base := join s.base, ofs := join s.ofs }

/-- The table of R139, row by row, on the numbers of the command word alone: it uses neither the
decoder nor the word-wise adder nor the block counts of the model. All additions are modulo
`2^128`. -/
def tableServe (u : TableUnit) (c : Command) : TableUnit × Response :=
  let op := c.hdr.toNat / 4096
  let wh := c.hdr.toNat / 1024 % 4
  let len := c.hdr.toNat % 256
  let n := c.arg.toNat
  let off := c.arg.toInt
  if op = 0 ∨ 8 ≤ op then (u, ⟨.illegalCmd, .none, 0⟩)
  else if op = 2 ∨ op = 4 then (u, ⟨.ok, .none, 1⟩)
  else if op = 3 then (u, ⟨.ok, .none, 0⟩)
  else if op = 1 then
    if len = 16 then (⟨true, c.arg, 0⟩, ⟨.ok, .none, 0⟩) else (u, ⟨.invalidInput, .badLen, 0⟩)
  else if u.valid = false then (u, ⟨.noEngine, .none, 0⟩)
  else if op = 5 then (u, ⟨.ok, .none, u.base + u.ofs⟩)
  else if op = 6 then
    if n % 16 = 0 then
      ({ u with ofs := u.ofs + BitVec.ofNat 128 (n / 16) }, ⟨.ok, .none, 0⟩)
    else
      ({ u with ofs := u.ofs + BitVec.ofNat 128 (n / 16 + 1) }, ⟨.ok, .partialBlock, 0⟩)
  else if off % 16 ≠ 0 then (u, ⟨.unsupported, .align, 0⟩)
  else if 2 ≤ wh then (u, ⟨.unsupported, .whence, 0⟩)
  else if wh = 0 then
    if off < 0 then (u, ⟨.unsupported, .negAbs, 0⟩)
    else ({ u with ofs := BitVec.ofInt 128 (off / 16) }, ⟨.ok, .none, 0⟩)
  else
    if off < 0 then (u, ⟨.unsupported, .negRel, 0⟩)
    else ({ u with ofs := u.ofs + BitVec.ofInt 128 (off / 16) }, ⟨.ok, .none, 0⟩)

/-- A list of commands through the table of R139, in order. -/
def tableServeAll (u : TableUnit) : List Command → TableUnit × List Response
  | [] => (u, [])
  | c :: cs =>
    let (v, r) := tableServe u c
    let (w, rs) := tableServeAll v cs
    (w, r :: rs)

/-- `n` beats of the machine. -/
def runBeats : Nat → State → Host.Outcome State Fault Refusal
  | 0, s => .next s
  | n + 1, s =>
    match step s with
    | .next t => runBeats n t
    | .fault r => .fault r
    | .refused r => .refused r

/-- The commands the unit accepts in the next `n` beats, in order (R33): those offered in a beat in
which `cmd_ready` is 1 and `rst` is not asserted. -/
def acceptedIn : Nat → State → List Command
  | 0, _ => []
  | n + 1, s =>
    let now :=
      if cmdReady s && !(currentBeat s).rst then (currentBeat s).offer.toList else []
    match step s with
    | .next t => now ++ acceptedIn n t
    | .fault _ => now
    | .refused _ => now

/-- The host does not assert `rst` in any beat to come. -/
def noReset (s : State) : Bool := s.inputs.all fun b => !b.rst

/-- The pending response, if there is one, is taken. -/
def takePending (s : State) : State :=
  match s.rsp with
  | some r => deliverResponse r s
  | .none => s

/-- A host that issues commands one at a time, each after the response to the one before (R33,
R200). -/
def callAll : List Command → State → Host.Outcome State Fault Refusal
  | [], s => .next s
  | c :: cs, s =>
    match runCommand c s with
    | .next t => callAll cs (takePending t)
    | .fault r => .fault r
    | .refused r => .refused r

/-- The beats of one call: the command is offered, runs, and its response is taken. -/
def callBeats (c : Command) : List Beat :=
  [{ Beat.idle with offer := some c }, Beat.idle, { Beat.idle with rspReady := true }]

/-- The sum of the block counts of a list of byte counts, each rounded up on its own (R88, R132). -/
def blockSum (ns : List (BitVec 128)) : Nat :=
  (ns.map fun n => (n.toNat + (Config.blockBytes - 1)) / Config.blockBytes).sum

/-- The calls of R194 for one block: `GETIV`, then `ADVANCE n` with `n` the bytes just transformed. -/
def blockCalls (n : BitVec 128) : List Command := [encode .getiv, encode (.advance n)]

/-- The end of a run (R200): no further command to offer and no response pending, the unit ready. -/
def runEnded (s : State) : Bool :=
  s.inputs.all (fun b => b.offer.isNone) && cmdReady s && !rspValid s

/-- Whether an `ADVANCE` would now follow a `PARTIAL` response with no `LOADIV` or successful `SEEK`
between (R196), after one more exchange of a command and its response. DEDUCED (log entry 9: any
`LOADIV` ends the duty, a `SEEK` only when it succeeds). -/
def afterPartial (before : Bool) (c : Command) (r : Response) : Bool :=
  match decode c with
  | .ok (.advance _) => before || r.cause == .partialBlock
  | .ok (.loadiv _ _) => false
  | .ok (.seek _ _) => before && r.status != .ok
  | .ok .getmode => before
  | .ok .reqpad => before
  | .ok .supseek => before
  | .ok .getiv => before
  | .error _ => before

/-- Whether a command is an `ADVANCE`. -/
def isAdvance (c : Command) : Bool :=
  match decode c with
  | .ok (.advance _) => true
  | _ => false

/-- The host's duty of R196 is kept in a list of exchanges: no `ADVANCE` follows a `PARTIAL` response
with no `LOADIV` or successful `SEEK` between. The unit does not check it (R133). -/
def dutyKept (before : Bool) : List (Command × Response) → Bool
  | [] => true
  | (c, r) :: xs => !(before && isAdvance c) && dutyKept (afterPartial before c r) xs

end Sys2Proof.Safety
end

