-- ==== Sys2Proof/Certificates/Slice0/Obligations.lean ====
section
/-! DEFINITION. The statements for the provers. Each docstring names the rule of `spec/` it formalises. -/

open Sys2Proof
open Sys2Proof.Machine
open Sys2Proof.Safety

/-! ### Reset and the step -/

/-- The reset values R35 gives. -/
def Obligations.ResetStateValues : Prop :=
  State.reset.valid = false ∧
  (∀ i, State.reset.base.word i = 0x0000) ∧
  (∀ i, State.reset.ofs.word i = 0x0000) ∧
  State.reset.inFlight = none ∧
  State.reset.rsp = none

/-- R35: the reset values, and that no outcome of any run from reset depends on those of `BASE` and
`OFS`: with any other two counters, and whatever the outside does, every response is the same, and
from the first construction on the whole state is. -/
def Obligations.ResetCountersAreInvisible : Prop :=
  (State.reset.valid = false ∧
    (∀ i, State.reset.base.word i = 0x0000) ∧
    (∀ i, State.reset.ofs.word i = 0x0000) ∧
    State.reset.inFlight = none ∧
    State.reset.rsp = none) ∧
  ∀ (base ofs : Counter) (inputs : List Beat) (n : Nat),
    ∃ t u,
      runBeats n { State.reset with inputs := inputs } = .next t ∧
      runBeats n { State.reset with inputs := inputs, base := base, ofs := ofs } = .next u ∧
      t.taken = u.taken ∧ t.rsp = u.rsp ∧ t.valid = u.valid ∧ (t.valid = true → t = u)

/-- R190, R191: a beat in which `rst` is asserted puts the unit in the state of R35, whatever was in
flight or pending; a command in flight is abandoned and gives no response. -/
def Obligations.ResetBeatGivesResetState : Prop :=
  ∀ s : State, (currentBeat s).rst = true →
    ∃ t, step s = .next t ∧
      t.valid = false ∧
      (∀ i, t.base.word i = 0x0000) ∧
      (∀ i, t.ofs.word i = 0x0000) ∧
      t.inFlight = none ∧
      t.rsp = none ∧
      (s.rsp = none → t.taken = s.taken) ∧
      t.inputs = s.inputs.tail

/-- R192: only reset takes the unit from an engine to no engine. -/
def Obligations.OnlyResetEndsAnEngine : Prop :=
  ∀ s t : State, step s = .next t → s.valid = true → t.valid = false →
    (currentBeat s).rst = true

/-- Nothing stops the unit: every beat in every state has a next state. No rule says so in these words:
it is the model's inference from R161 to R163 and R171. DEDUCED (log entry 10). -/
def Obligations.EveryStepAnswersNext : Prop :=
  ∀ s : State, ∃ t, step s = .next t

/-- A step runs the decoded instruction (R48): with a command in flight, in a beat without reset in
which it is not kept waiting, the step is that instruction's `exec` on the state whose beat is over,
and an undecodable command is answered as R165 says; in a beat in which it is kept waiting nothing
happens but that the beat is over. -/
def Obligations.StepRunsDecodedInstruction : Prop :=
  (∀ (s : State) (c : Command) (i : Instr),
    s.inFlight = some c → (currentBeat s).rst = false → (currentBeat s).busy = false →
    decode c = .ok i →
    step s = exec i { s with inputs := s.inputs.tail }) ∧
  (∀ (s : State) (c : Command) (e : DecodeError),
    s.inFlight = some c → (currentBeat s).rst = false → (currentBeat s).busy = false →
    decode c = .error e →
    step s =
      .next { s with
        inputs := s.inputs.tail
        inFlight := none
        rsp := some ⟨.illegalCmd, .none, 0⟩ }) ∧
  (∀ (s : State) (c : Command),
    s.inFlight = some c → (currentBeat s).rst = false → (currentBeat s).busy = true →
    step s = .next { s with inputs := s.inputs.tail })

/-- A command placed as `withFetchWord` places it is run by the very next step. -/
def Obligations.FetchedWordRunsNext : Prop :=
  ∀ (s : State) (nbits w : Nat) (i : Instr), decodeTableWord nbits w = some i →
    step (s.withFetchWord nbits w) =
      exec i { s with inFlight := some (wordCommand nbits w), rsp := none }

/-- R33: the transfers of the two channels, with the handshake the spec takes from general knowledge
(log entry 4) and readiness read from R33 and R200 (log entry 6). A command is accepted when one is offered and the unit
has none in flight and no response pending; a pending response is taken when the host is ready; and
while a command is in flight or a response is pending no command is accepted. -/
def Obligations.ChannelTransfers : Prop :=
  (∀ (s : State) (c : Command),
    (currentBeat s).rst = false → s.inFlight = none → s.rsp = none →
    (currentBeat s).offer = some c →
    step s = .next { s with inFlight := some c, inputs := s.inputs.tail }) ∧
  (∀ (s : State) (r : Response),
    (currentBeat s).rst = false → s.inFlight = none → s.rsp = some r →
    (currentBeat s).rspReady = true →
    step s = .next { s with rsp := none, taken := s.taken ++ [r], inputs := s.inputs.tail }) ∧
  (∀ (s : State) (r : Response),
    (currentBeat s).rst = false → s.inFlight = none → s.rsp = some r →
    (currentBeat s).rspReady = false →
    step s = .next { s with inputs := s.inputs.tail }) ∧
  (∀ (s t : State),
    step s = .next t → s.inFlight.isSome = true ∨ s.rsp.isSome = true →
    t.inFlight = s.inFlight ∨ t.inFlight = none)

/-! ### Encoding -/

/-- R63: the opcode alone decides which command a header spells. -/
def Obligations.OpcodeAloneDecides : Prop :=
  ∀ c : Command,
    (opField c.hdr = 0x1 ↔ ∃ len iv, decode c = .ok (.loadiv len iv)) ∧
    (opField c.hdr = 0x2 ↔ decode c = .ok .getmode) ∧
    (opField c.hdr = 0x3 ↔ decode c = .ok .reqpad) ∧
    (opField c.hdr = 0x4 ↔ decode c = .ok .supseek) ∧
    (opField c.hdr = 0x5 ↔ decode c = .ok .getiv) ∧
    (opField c.hdr = 0x6 ↔ ∃ bytes, decode c = .ok (.advance bytes)) ∧
    (opField c.hdr = 0x7 ↔ ∃ whence offset, decode c = .ok (.seek whence offset))

/-- R68, R165: a reserved opcode spells no command and is answered `ILLEGAL_CMD`/`NONE` with data 0
and no change of the registers, whatever `VALID` and the other fields hold; every other header is
one of the seven commands. -/
def Obligations.ReservedOpcodesAreIllegal : Prop :=
  (∀ (c : Command) (s : State),
    opField c.hdr = 0x0 ∨ 0x8 ≤ (opField c.hdr).toNat →
    runCommand c s =
      .next { s with inFlight := none, rsp := some ⟨.illegalCmd, .none, 0⟩ }) ∧
  (∀ c : Command,
    (∃ i, decode c = .ok i) ∨ opField c.hdr = 0x0 ∨ 0x8 ≤ (opField c.hdr).toNat)

/-- R66: two commands with the same opcode and the same values in the fields that opcode uses decode
to the same instruction and run in the same way, whatever their other bits. -/
def Obligations.UnusedFieldsAreIgnored : Prop :=
  ∀ c d : Command,
    opField c.hdr = opField d.hdr →
    (opField c.hdr = 0x1 → lenField c.hdr = lenField d.hdr ∧ c.arg = d.arg) →
    (opField c.hdr = 0x6 → c.arg = d.arg) →
    (opField c.hdr = 0x7 → whField c.hdr = whField d.hdr ∧ c.arg = d.arg) →
    (∀ i, decode c = .ok i ↔ decode d = .ok i) ∧ ∀ s, runCommand c s = runCommand d s

/-- Decode of encode is the identity, for every instruction and every value of its operands. -/
def Obligations.DecodeOfEncode : Prop :=
  ∀ i : Instr, decode (encode i) = .ok i

/-- Encode of decode is the identity on the commands whose unused fields are 0, as the assembler
writes them (R70). -/
def Obligations.EncodeOfDecode : Prop :=
  ∀ (c : Command) (i : Instr), decode c = .ok i →
    rsvField c.hdr = 0 →
    (opField c.hdr ≠ 0x1 → lenField c.hdr = 0) →
    (opField c.hdr ≠ 0x7 → whField c.hdr = 0) →
    (opField c.hdr ≠ 0x1 → opField c.hdr ≠ 0x6 → opField c.hdr ≠ 0x7 → c.arg = 0) →
    encode i = c

/-- R72, which the spec derives from R60, R64, R67 and R70, and a worked word of every family: the
words are the spec's own. -/
def Obligations.WorkedEncodings : Prop :=
  assemble (.seek (-16) .current) = some ⟨0x7400, 0xfffffffffffffffffffffffffffffff0⟩ ∧
  assemble (.loadiv (some 16) 0x000102030405060708090a0b0c0d0e0f) =
    some ⟨0x1010, 0x000102030405060708090a0b0c0d0e0f⟩ ∧
  decode ⟨0x7400, 0xfffffffffffffffffffffffffffffff0⟩ =
    .ok (.seek .current 0xfffffffffffffffffffffffffffffff0) ∧
  decode ⟨0x1010, 0x000102030405060708090a0b0c0d0e0f⟩ =
    .ok (.loadiv 16 0x000102030405060708090a0b0c0d0e0f) ∧
  decode ⟨0x5000, 0⟩ = .ok .getiv ∧
  decode ⟨0x6000, 0x10⟩ = .ok (.advance 0x10)

/-- R70: every line of the assembler with its operands in range assembles to the encoding of the
instruction it writes, `LOADIV iv` is `LOADIV 16, iv`, and a raw line is its own word. -/
def Obligations.AssembledLinesEncodeInstructions : Prop :=
  (∀ len iv : Nat, len < 256 → iv < 2 ^ 128 →
    assemble (.loadiv (some len) iv) =
      some (encode (.loadiv (BitVec.ofNat 8 len) (BitVec.ofNat 128 iv)))) ∧
  (∀ iv : Nat, iv < 2 ^ 128 →
    assemble (.loadiv none iv) = some (encode (.loadiv 16 (BitVec.ofNat 128 iv)))) ∧
  assemble .getmode = some (encode .getmode) ∧
  assemble .reqpad = some (encode .reqpad) ∧
  assemble .supseek = some (encode .supseek) ∧
  assemble .getiv = some (encode .getiv) ∧
  (∀ n : Nat, n < 2 ^ 128 →
    assemble (.advance n) = some (encode (.advance (BitVec.ofNat 128 n)))) ∧
  (∀ off : Int, -2 ^ 127 ≤ off → off < 2 ^ 127 →
    assemble (.seek off .start) = some (encode (.seek .start (BitVec.ofInt 128 off))) ∧
    assemble (.seek off .current) = some (encode (.seek .current (BitVec.ofInt 128 off))) ∧
    assemble (.seek off (.number 2)) =
      some (encode (.seek .unrecognised2 (BitVec.ofInt 128 off))) ∧
    assemble (.seek off (.number 3)) =
      some (encode (.seek .unrecognised3 (BitVec.ofInt 128 off)))) ∧
  (∀ c : Command, assemble (.cmd c.hdr.toNat c.arg.toNat) = some c)

/-- R71: `UPDATE n` assembles as `ADVANCE n`, so it runs as it. -/
def Obligations.UpdateAssemblesAsAdvance : Prop :=
  ∀ n : Nat, assemble (.update n) = assemble (.advance n)

/-! ### Counter arithmetic -/

/-- R80, R81: the words of `split`, the value of `join`, and that each undoes the other. -/
def Obligations.SplitAndJoinAreInverse : Prop :=
  (∀ (v : BitVec 128) (i : Nat), i < 8 →
    (split v).word i = v.extractLsb' (112 - 16 * i) 16) ∧
  (∀ c : Counter,
    (join c).toNat = ∑ i ∈ Finset.range 8, (c.word i).toNat * 65536 ^ (7 - i)) ∧
  (∀ v : BitVec 128, join (split v) = v) ∧
  (∀ c : Counter, split (join c) = c)

/-- R40: big-endian at every level, and so it is for the value `LOADIV` takes and the value `GETIV`
gives. -/
def Obligations.BytesAreBigEndian : Prop :=
  (∀ v : BitVec 128,
    v.toNat = ∑ j ∈ Finset.range 16, (byteOf v j).toNat * 256 ^ (15 - j)) ∧
  (∀ (iv : BitVec 128) (s t : State) (i : Nat), exec (.loadiv 16 iv) s = .next t → i < 8 →
    (t.base.word i).toNat =
      (byteOf iv (2 * i)).toNat * 256 + (byteOf iv (2 * i + 1)).toNat) ∧
  (∀ (s : State), s.valid = true →
    ∃ t r, exec .getiv s = .next t ∧ t.rsp = some r ∧
      ∀ i, i < 8 →
        byteOf r.data (2 * i) = ((add128w s.base s.ofs).word i).extractLsb' 8 8 ∧
        byteOf r.data (2 * i + 1) = ((add128w s.base s.ofs).word i).extractLsb' 0 8)

/-- R83, which the spec derives from R82: every word sum is at most 131071, so every carry is 0 or 1;
and a carry can ripple from word 7 through every word. -/
def Obligations.CarriesAreOneBit : Prop :=
  (∀ a b : Counter,
    let s := wordSums a b
    ∀ sum ∈ [s.s0, s.s1, s.s2, s.s3, s.s4, s.s5, s.s6, s.s7],
      sum ≤ 131071 ∧ (carryOf sum = 0 ∨ carryOf sum = 1)) ∧
  (let s := wordSums (split (2 ^ 128 - 1)) (split 1)
    ∀ sum ∈ [s.s0, s.s1, s.s2, s.s3, s.s4, s.s5, s.s6, s.s7], carryOf sum = 1)

/-- R84: the word-wise adder is addition modulo `2^128`, and no status or cause reports an overflow:
they are the same whatever the two counters hold. -/
def Obligations.AdderIsAdditionModulo : Prop :=
  (∀ a b : Counter,
    (join (add128w a b)).toNat = ((join a).toNat + (join b).toNat) % 2 ^ 128) ∧
  (∀ (i : Instr) (s : State) (base ofs : Counter),
    ∃ t u r q, exec i s = .next t ∧ exec i { s with base := base, ofs := ofs } = .next u ∧
      t.rsp = some r ∧ u.rsp = some q ∧ r.status = q.status ∧ r.cause = q.cause)

/-- R85, which the spec derives from R84: the laws of the adder, the last over any sequence of additions. -/
def Obligations.AdderLaws : Prop :=
  (∀ a b : Counter, add128w a b = add128w b a) ∧
  (∀ a b c : Counter, add128w (add128w a b) c = add128w a (add128w b c)) ∧
  (∀ a : Counter, add128w a (split 0) = a) ∧
  (∀ (a : Counter) (ns : List (BitVec 128)),
    ns.foldl (fun acc n => add128w acc (split n)) a =
      add128w a (split (BitVec.ofNat 128 ((ns.map BitVec.toNat).sum % 2 ^ 128))))

/-- R88: the block count of an `ADVANCE` is the byte count divided by 16 and rounded up, at most
`2^124`, exact on multiples of 16; it is partial on every other byte count; and it is what an
`ADVANCE` adds to `OFS`. -/
def Obligations.AdvanceBlocksRoundUp : Prop :=
  (∀ bytes : BitVec 128,
    (advanceBlocks bytes).toNat = (bytes.toNat + 15) / 16 ∧
    (advanceBlocks bytes).toNat ≤ 2 ^ 124 ∧
    (bytes.toNat % 16 = 0 → (advanceBlocks bytes).toNat * 16 = bytes.toNat) ∧
    (isPartial bytes = true ↔ bytes.toNat % 16 ≠ 0)) ∧
  (∀ (bytes : BitVec 128) (s : State), s.valid = true →
    ∃ t, exec (.advance bytes) s = .next t ∧
      t.ofs = add128w s.ofs (split (advanceBlocks bytes)))

/-- R89: the block count of a non-negative, aligned offset is the offset divided by 16, exactly, which
is bits 126 to 4 of the argument and at most `2^123 - 1`; and it is what a `SEEK` adds to `OFS`, or to
zero. -/
def Obligations.SeekBlocksAreExact : Prop :=
  ∀ offset : BitVec 128, 0 ≤ offset.toInt → offset.toInt % 16 = 0 →
    ((seekBlocks offset).toNat : Int) = offset.toInt / 16 ∧
    ((seekBlocks offset).toNat : Int) * 16 = offset.toInt ∧
    (seekBlocks offset).toNat = (offset.extractLsb' 4 123).toNat ∧
    (seekBlocks offset).toNat ≤ 2 ^ 123 - 1 ∧
    ∀ s : State, s.valid = true →
      ∃ t u, exec (.seek .current offset) s = .next t ∧ exec (.seek .start offset) s = .next u ∧
        t.ofs = add128w s.ofs (split (seekBlocks offset)) ∧
        u.ofs = add128w (split 0) (split (seekBlocks offset))

/-! ### The commands -/

/-- R100: `LOADIV`, its encoding, its effect and its refusal, with everything it leaves alone. -/
def Obligations.LoadivConstructsEngine : Prop :=
  (∀ c : Command, opField c.hdr = 0x1 → decode c = .ok (.loadiv (lenField c.hdr) c.arg)) ∧
  (∀ (iv : BitVec 128) (s : State),
    exec (.loadiv 16 iv) s =
      .next { s with
        base := split iv
        ofs := split 0
        valid := true
        inFlight := none
        rsp := some ⟨.ok, .none, 0⟩ }) ∧
  (∀ (len : BitVec 8) (iv : BitVec 128) (s : State), len ≠ 16 →
    exec (.loadiv len iv) s =
      .next { s with inFlight := none, rsp := some ⟨.invalidInput, .badLen, 0⟩ })

/-- R101: a refused `LOADIV` writes none of `BASE`, `OFS` and `VALID` and does not look at the IV. -/
def Obligations.RefusedLoadivWritesNothing : Prop :=
  ∀ (len : BitVec 8) (iv other : BitVec 128) (s : State), len ≠ 16 →
    ∃ t, exec (.loadiv len iv) s = .next t ∧
      t.base = s.base ∧ t.ofs = s.ofs ∧ t.valid = s.valid ∧
      exec (.loadiv len other) s = .next t

/-- R102: a successful `LOADIV` on an existing engine is a new construction: what it leaves does not
depend on the old engine. -/
def Obligations.ReconstructionForgetsOldEngine : Prop :=
  ∀ (iv : BitVec 128) (s : State) (base ofs : Counter) (valid : Bool),
    exec (.loadiv 16 iv) { s with base := base, ofs := ofs, valid := valid } =
        exec (.loadiv 16 iv) s ∧
      ∃ t, exec (.loadiv 16 iv) s = .next t ∧
        t.base = split iv ∧ t.ofs = split 0 ∧ t.valid = true

/-- R110, R111, R112: the three mode queries, their encodings, their constant answers in every state,
and that they change nothing else. -/
def Obligations.ModeQueriesAnswerConstants : Prop :=
  (∀ c : Command,
    (opField c.hdr = 0x2 → decode c = .ok .getmode) ∧
    (opField c.hdr = 0x3 → decode c = .ok .reqpad) ∧
    (opField c.hdr = 0x4 → decode c = .ok .supseek)) ∧
  (∀ s : State,
    exec .getmode s = .next { s with inFlight := none, rsp := some ⟨.ok, .none, 0x01⟩ } ∧
    exec .reqpad s = .next { s with inFlight := none, rsp := some ⟨.ok, .none, 0⟩ } ∧
    exec .supseek s = .next { s with inFlight := none, rsp := some ⟨.ok, .none, 1⟩ })

/-- R113, R114: `GETIV` answers the sum of the two counters modulo `2^128` where an engine exists,
`NO_ENGINE` where none does, and changes nothing else. -/
def Obligations.GetivAnswersCurrentIv : Prop :=
  (∀ c : Command, opField c.hdr = 0x5 → decode c = .ok .getiv) ∧
  (∀ s : State, s.valid = true →
    exec .getiv s =
      .next { s with
        inFlight := none
        rsp := some ⟨.ok, .none,
          BitVec.ofNat 128 (((join s.base).toNat + (join s.ofs).toNat) % 2 ^ 128)⟩ }) ∧
  (∀ s : State, s.valid = false →
    exec .getiv s = .next { s with inFlight := none, rsp := some ⟨.noEngine, .none, 0⟩ })

/-- R130, R131: `ADVANCE` adds the byte count in blocks, rounded up, modulo `2^128`, reports
`PARTIAL` where it rounded, and changes nothing else; with no engine it is refused. -/
def Obligations.AdvanceAddsBlocks : Prop :=
  (∀ c : Command, opField c.hdr = 0x6 → decode c = .ok (.advance c.arg)) ∧
  (∀ (bytes : BitVec 128) (s : State), s.valid = true →
    exec (.advance bytes) s =
      .next { s with
        ofs := split (BitVec.ofNat 128 (((join s.ofs).toNat + (bytes.toNat + 15) / 16) % 2 ^ 128))
        inFlight := none
        rsp := some ⟨.ok, if bytes.toNat % 16 = 0 then .none else .partialBlock, 0⟩ }) ∧
  (∀ (bytes : BitVec 128) (s : State), s.valid = false →
    exec (.advance bytes) s =
      .next { s with inFlight := none, rsp := some ⟨.noEngine, .none, 0⟩ })

/-- R135, R136: `SEEK`, its encoding; its refusals in the order of the checks, each of which leaves
all state as it was; and its effect once accepted, modulo `2^128`, with everything it leaves
alone. -/
def Obligations.SeekFollowsItsRule : Prop :=
  (∀ c : Command, opField c.hdr = 0x7 →
    decode c = .ok (.seek (whenceOf (whField c.hdr)) c.arg)) ∧
  (∀ (whence : Whence) (offset : BitVec 128) (s : State), s.valid = false →
    exec (.seek whence offset) s =
      .next { s with inFlight := none, rsp := some ⟨.noEngine, .none, 0⟩ }) ∧
  (∀ (whence : Whence) (offset : BitVec 128) (s : State), s.valid = true →
    (offset.toInt % 16 ≠ 0 →
      exec (.seek whence offset) s =
        .next { s with inFlight := none, rsp := some ⟨.unsupported, .align, 0⟩ }) ∧
    (offset.toInt % 16 = 0 → whence = .unrecognised2 ∨ whence = .unrecognised3 →
      exec (.seek whence offset) s =
        .next { s with inFlight := none, rsp := some ⟨.unsupported, .whence, 0⟩ }) ∧
    (offset.toInt % 16 = 0 → whence = .start → offset.toInt < 0 →
      exec (.seek whence offset) s =
        .next { s with inFlight := none, rsp := some ⟨.unsupported, .negAbs, 0⟩ }) ∧
    (offset.toInt % 16 = 0 → whence = .current → offset.toInt < 0 →
      exec (.seek whence offset) s =
        .next { s with inFlight := none, rsp := some ⟨.unsupported, .negRel, 0⟩ }) ∧
    (offset.toInt % 16 = 0 → whence = .start → 0 ≤ offset.toInt →
      exec (.seek whence offset) s =
        .next { s with
          ofs := split (BitVec.ofInt 128 (offset.toInt / 16))
          inFlight := none
          rsp := some ⟨.ok, .none, 0⟩ }) ∧
    (offset.toInt % 16 = 0 → whence = .current → 0 ≤ offset.toInt →
      exec (.seek whence offset) s =
        .next { s with
          ofs := split (join s.ofs + BitVec.ofInt 128 (offset.toInt / 16))
          inFlight := none
          rsp := some ⟨.ok, .none, 0⟩ }))

/-- R138: a `SEEK` never rounds: whatever it adds to or stores in `OFS` is an exact number of blocks,
and an offset that is no multiple of 16 leaves `OFS` as it was. -/
def Obligations.SeekNeverRounds : Prop :=
  ∀ (whence : Whence) (offset : BitVec 128) (s t : State),
    exec (.seek whence offset) s = .next t → offset.toNat % 16 ≠ 0 →
    t.ofs = s.ofs ∧ ∃ r, t.rsp = some r ∧ r.status ≠ .ok

/-- R166: which commands need an engine, and that the others never answer `NO_ENGINE`. -/
def Obligations.NoEngineRefusals : Prop :=
  (∀ (s : State) (bytes offset : BitVec 128) (whence : Whence), s.valid = false →
    exec .getiv s = .next { s with inFlight := none, rsp := some ⟨.noEngine, .none, 0⟩ } ∧
    exec (.advance bytes) s =
      .next { s with inFlight := none, rsp := some ⟨.noEngine, .none, 0⟩ } ∧
    exec (.seek whence offset) s =
      .next { s with inFlight := none, rsp := some ⟨.noEngine, .none, 0⟩ }) ∧
  (∀ (i : Instr) (s t : State) (r : Response),
    (∃ len iv, i = .loadiv len iv) ∨ i = .getmode ∨ i = .reqpad ∨ i = .supseek →
    exec i s = .next t → t.rsp = some r → r.status ≠ .noEngine)

/-- R167, R168, R169: which command each error kind, and the cause `PARTIAL`, comes from. -/
def Obligations.ErrorKindsByCommand : Prop :=
  ∀ (c : Command) (s t : State) (r : Response),
    runCommand c s = .next t → t.rsp = some r →
    (r.status = .invalidInput →
      r.cause = .badLen ∧ ∃ len iv, decode c = .ok (.loadiv len iv) ∧ len ≠ 16) ∧
    (r.status = .unsupported →
      (r.cause = .align ∨ r.cause = .whence ∨ r.cause = .negAbs ∨ r.cause = .negRel) ∧
      ∃ whence offset, decode c = .ok (.seek whence offset)) ∧
    (r.cause = .partialBlock →
      r.status = .ok ∧ ∃ bytes, decode c = .ok (.advance bytes) ∧
        t.ofs = add128w s.ofs (split (advanceBlocks bytes)))

/-- R160: the numbers of the status and cause codes. -/
def Obligations.StatusAndCauseCodes : Prop :=
  statusBits .ok = 0 ∧ statusBits .invalidInput = 1 ∧ statusBits .unsupported = 2 ∧
  statusBits .noEngine = 3 ∧ statusBits .illegalCmd = 4 ∧
  causeBits .none = 0 ∧ causeBits .align = 1 ∧ causeBits .negAbs = 2 ∧ causeBits .negRel = 3 ∧
  causeBits .whence = 4 ∧ causeBits .partialBlock = 5 ∧ causeBits .badLen = 6

/-- R170, which the spec derives from R160 to R169: the codes and pairs of codes that are never produced, for the response of any command in
any state. -/
def Obligations.CodesNeverProduced : Prop :=
  ∀ (c : Command) (s t : State) (r : Response),
    runCommand c s = .next t → t.rsp = some r →
    (statusBits r.status).toNat < 5 ∧ (causeBits r.cause).toNat < 7 ∧
    (causeBits r.cause = 5 → statusBits r.status = 0) ∧
    (causeBits r.cause = 6 → statusBits r.status = 1) ∧
    (causeBits r.cause = 1 ∨ causeBits r.cause = 2 ∨ causeBits r.cause = 3 ∨
      causeBits r.cause = 4 → statusBits r.status = 2)

/-- R62: the data of every response. -/
def Obligations.ResponseData : Prop :=
  ∀ (c : Command) (s t : State) (r : Response),
    runCommand c s = .next t → t.rsp = some r →
    (r.status ≠ .ok → r.data = 0) ∧
    (decode c = .ok .getiv → r.status = .ok → r.data = join s.base + join s.ofs) ∧
    (decode c = .ok .getmode → r.data = 0x01) ∧
    (decode c = .ok .reqpad → r.data = 0) ∧
    (decode c = .ok .supseek → r.data = 1) ∧
    (decode c ≠ .ok .getiv → decode c ≠ .ok .getmode → decode c ≠ .ok .supseek → r.data = 0)

/-! ### Frames -/

/-- What every command leaves alone: the outside always; `BASE` and `VALID` unless it is a `LOADIV`
of length 16; `OFS` unless it is one of those, or an `ADVANCE` or `SEEK` with an engine. The command
is over and its response is offered. -/
def Obligations.CommandFrame : Prop :=
  ∀ (i : Instr) (s t : State), exec i s = .next t →
    t.inputs = s.inputs ∧ t.taken = s.taken ∧ t.inFlight = none ∧ t.rsp.isSome = true ∧
    ((∀ iv, i ≠ .loadiv 16 iv) → t.base = s.base ∧ t.valid = s.valid) ∧
    ((∀ iv, i ≠ .loadiv 16 iv) →
      s.valid = false ∨ ((∀ n, i ≠ .advance n) ∧ ∀ whence off, i ≠ .seek whence off) →
      t.ofs = s.ofs)

/-- R25: `VALID` and `BASE` change only at reset and at a successful `LOADIV`; any other beat changes
no register but `OFS`. R21: and it changes `OFS` only by an `ADVANCE` or a `SEEK` it accepts. -/
def Obligations.RegistersChangeOnlyByTheirCommands : Prop :=
  ∀ s t : State, step s = .next t → (currentBeat s).rst = false →
    (t.base ≠ s.base ∨ t.valid ≠ s.valid →
      ∃ c iv, s.inFlight = some c ∧ decode c = .ok (.loadiv 16 iv)) ∧
    (t.ofs ≠ s.ofs →
      ∃ c r, s.inFlight = some c ∧ t.rsp = some r ∧ r.status = .ok ∧
        ((∃ iv, decode c = .ok (.loadiv 16 iv)) ∨ (∃ n, decode c = .ok (.advance n)) ∨
          (∃ off, decode c = .ok (.seek .start off)) ∨
          (∃ off, decode c = .ok (.seek .current off))))

/-- R161: an error ends the command with no register written and answers data 0. -/
def Obligations.ErrorsChangeNothing : Prop :=
  ∀ (c : Command) (s t : State) (r : Response),
    runCommand c s = .next t → t.rsp = some r → r.status ≠ .ok →
    t = { s with inFlight := none, rsp := some ⟨r.status, r.cause, 0⟩ }

/-- R50: the four commands that only read have no side effects, and issued again give the same
response. -/
def Obligations.ReadersAreIdempotent : Prop :=
  ∀ (i : Instr) (s : State), i = .getmode ∨ i = .reqpad ∨ i = .supseek ∨ i = .getiv →
    ∃ t, exec i s = .next t ∧
      t.base = s.base ∧ t.ofs = s.ofs ∧ t.valid = s.valid ∧
      exec i t = .next t

/-! ### The whole machine -/

/-- R139, which the spec derives from the rules of the commands, in the order of checks of R164: every
command, in every state, does what its row of the table says, and nothing to the
outside; and reset leads to `UNBUILT` with both counters 0 and no response. The table is written over
128-bit integers, so this is also the refinement of those by the word-wise datapath. -/
def Obligations.CommandsFollowStateTable : Prop :=
  (∀ (c : Command) (s : State),
    ∃ t, runCommand c s = .next t ∧
      tableView t = (tableServe (tableView s) c).1 ∧
      t.rsp = some (tableServe (tableView s) c).2 ∧
      t.inFlight = none ∧ t.inputs = s.inputs ∧ t.taken = s.taken) ∧
  (∀ s : State, (currentBeat s).rst = true →
    ∃ t, step s = .next t ∧ tableView t = ⟨false, 0, 0⟩ ∧ t.rsp = none ∧
      (s.rsp = none → t.taken = s.taken))

/-- Every step keeps the invariant: at most one command in flight, none while a response is pending,
and every response one the unit can produce (R33, R62, R170). -/
def Obligations.StepKeepsSound : Prop :=
  ∀ s t : State, sound s = true → step s = .next t → sound t = true

/-- The invariant holds at reset. -/
def Obligations.ResetIsSound : Prop := sound State.reset = true

/-- R203 with D21, in the model's reading of `LATENCY` (log entry 3): every accepted command responds, after at most one beat more than the outside has
in store, unless reset comes first; and what it does is what it would do at once, whatever the
latency. -/
def Obligations.AcceptedCommandResponds : Prop :=
  ∀ (s : State) (c : Command), s.inFlight = some c → noReset s = true →
    ∃ n t u, n ≤ s.inputs.length + 1 ∧ runBeats n s = .next t ∧ runCommand c s = .next u ∧
      t.rsp.isSome = true ∧ t = { u with inputs := s.inputs.drop n }

/-- R51, which the spec derives from R48 and R33, and R32, over the model's beats (log entries 2, 4 and
6): whatever is offered and whenever responses are taken, the commands the unit accepts take
effect in the order of their acceptance and each, but one that may still be in flight, has given
exactly its one response, in that order. (A beat of reset is `ResetBeatGivesResetState`.) -/
def Obligations.CommandsServedInOrder : Prop :=
  ∀ (n : Nat) (s : State), cmdReady s = true → noReset s = true →
    ∃ t finished, runBeats n s = .next t ∧
      acceptedIn n s = finished ++ t.inFlight.toList ∧
      tableView t = (tableServeAll (tableView s) finished).1 ∧
      t.taken ++ t.rsp.toList = s.taken ++ (tableServeAll (tableView s) finished).2

/-- A host that calls the unit over the beats of its channels (offer, run, take, for each command: the
model's beats, log entry 2) gets what it gets by calling it directly (R33, R48). -/
def Obligations.BeatsRealiseCalls : Prop :=
  ∀ (cs : List Command) (s : State), cmdReady s = true →
    runBeats (3 * cs.length) { s with inputs := cs.flatMap callBeats } =
      callAll cs { s with inputs := [] }

/-- R54, over the model's beats (log entry 2): every order of commands is a run: whatever list the hosts' commands interleave to, the unit
can be made to accept exactly that list. -/
def Obligations.EveryCommandOrderIsARun : Prop :=
  ∀ (cs : List Command) (s : State), cmdReady s = true →
    acceptedIn (3 * cs.length) { s with inputs := cs.flatMap callBeats } = cs

/-- R24: `VALID` is 1 exactly when a `LOADIV` has succeeded: over any calls from a state with no
engine. -/
def Obligations.ValidRecordsConstruction : Prop :=
  ∀ (cs : List Command) (s t : State), s.valid = false → callAll cs s = .next t →
    (t.valid = true ↔ ∃ c ∈ cs, ∃ iv, decode c = .ok (.loadiv 16 iv))

/-- R132, which the spec derives from R130 and R85: a sequence of `ADVANCE`s advances `OFS` by the sum of their own block counts modulo
`2^128`, in any order; where every byte count is a multiple of 16 that is the sum of the bytes over
16. -/
def Obligations.AdvanceSequencesAdd : Prop :=
  (∀ (ns : List (BitVec 128)) (s : State), s.valid = true →
    ∃ t, callAll (ns.map fun n => encode (.advance n)) s = .next t ∧
      t.valid = true ∧ t.base = s.base ∧
      (join t.ofs).toNat = ((join s.ofs).toNat + blockSum ns) % 2 ^ 128) ∧
  (∀ ns ms : List (BitVec 128), ns.Perm ms → blockSum ns = blockSum ms) ∧
  (∀ ns : List (BitVec 128), (∀ n ∈ ns, n.toNat % 16 = 0) →
    blockSum ns = (ns.map BitVec.toNat).sum / 16)

/-- R137, which the spec derives from R135, R130 and R85: after a successful `SEEK off, START` the Offset Counter is `off / 16`, whatever it was; and
`SEEK 16*k, START` then `GETIV` gives the IV that `k` times `ADVANCE 16` after a fresh `LOADIV` with
the same IV give. -/
def Obligations.SeekEqualsAdvancing : Prop :=
  (∀ (offset : BitVec 128) (s t : State) (r : Response),
    exec (.seek .start offset) s = .next t → t.rsp = some r → r.status = .ok →
    (join t.ofs).toNat = offset.toNat / 16) ∧
  (∀ (k : Nat) (iv : BitVec 128) (s u : State), k < 2 ^ 123 →
    u.valid = true → u.base = split iv →
    ∃ s' u',
      callAll (encode (.loadiv 16 iv) ::
        (List.replicate k (encode (.advance 16)) ++ [encode .getiv])) s = .next s' ∧
      callAll [encode (.seek .start (BitVec.ofNat 128 (16 * k))), encode .getiv] u = .next u' ∧
      s'.taken.getLast? = u'.taken.getLast? ∧
      s'.taken.getLast? = some ⟨.ok, .none, iv + BitVec.ofNat 128 k⟩)

/-- R22, R114 with the host's sequence of R194: after a `LOADIV` and any stream of blocks, each served
by a `GETIV` and an `ADVANCE`, the next `GETIV` gives the IV plus the number of blocks advanced, and
`OFS` is that number, modulo `2^128`. -/
def Obligations.StreamHandsOutSuccessiveIvs : Prop :=
  ∀ (iv : BitVec 128) (ns : List (BitVec 128)) (s : State),
    ∃ t,
      callAll (encode (.loadiv 16 iv) :: (ns.flatMap blockCalls ++ [encode .getiv])) s = .next t ∧
      (join t.ofs).toNat = blockSum ns % 2 ^ 128 ∧
      t.taken.getLast? = some ⟨.ok, .none, iv + BitVec.ofNat 128 (blockSum ns)⟩

/-- R196: a host that keeps its duty in a stream of `ADVANCE`s has advanced by the total length in
blocks, rounded up once; the unit's own responses show whether it did. What ends the duty is read
from R196 (log entry 9). -/
def Obligations.DutyMakesRoundingExact : Prop :=
  ∀ ns : List (BitVec 128),
    dutyKept false (ns.map fun n => (encode (.advance n), ⟨.ok, advanceCause n, 0⟩)) = true →
    blockSum ns = ((ns.map BitVec.toNat).sum + 15) / 16

/-- R200, R178, with the end of a run read off the model's beats (log entry 2): at the end of a run, with no reset to come, the unit holds its state: nothing changes
but the beats that pass, and the run stays ended. -/
def Obligations.EndedRunHoldsState : Prop :=
  ∀ s t : State, runEnded s = true → noReset s = true → step s = .next t →
    t = { s with inputs := s.inputs.tail } ∧ runEnded t = true
end

