-- ==== Sys2Proof/Laws/Arith.lean ====
section
/-! SUPPORT. The datapath as arithmetic on natural numbers: concatenation, `join`, and one word of the
adder. -/

namespace Sys2Proof.Machine

open Sys2Proof

/-- A concatenation as a number. -/
theorem append_toNat {n m : Nat} (x : BitVec n) (y : BitVec m) :
    (x ++ y).toNat = x.toNat * 2 ^ m + y.toNat := by
  rw [BitVec.toNat_append, ← Nat.shiftLeft_add_eq_or_of_lt y.isLt, Nat.shiftLeft_eq]

/-- `join` as a number, word by word (R81). -/
theorem join_toNat (c : Counter) :
    (join c).toNat =
      ((((((c.w0.toNat * 65536 + c.w1.toNat) * 65536 + c.w2.toNat) * 65536 + c.w3.toNat) * 65536 +
        c.w4.toNat) * 65536 + c.w5.toNat) * 65536 + c.w6.toNat) * 65536 + c.w7.toNat := by
  simp only [join, append_toNat, Nat.reducePow]

/-- The low half of a word sum is the word the adder keeps (R82). -/
theorem wordOf_toNat (sum : Nat) : (wordOf sum).toNat = sum % 65536 := by
  simp [wordOf]

/-- A word sum is its carry and its word (R82). -/
theorem sum_eq_carry_and_word (sum : Nat) : sum = carryOf sum * 65536 + (wordOf sum).toNat := by
  rw [wordOf_toNat]; unfold carryOf; omega

end Sys2Proof.Machine
end

