-- ==== Sys2Proof/Laws/Decode.lean ====
section
/-! SUPPORT. The fields of a header as arithmetic (R60), and everything the decoder can answer. -/

namespace Sys2Proof

open Sys2Proof.Machine

/-- A header as a number (R60). -/
theorem header_toNat (op : BitVec 4) (wh : BitVec 2) (len : BitVec 8) :
    (header op wh len).toNat = op.toNat * 4096 + wh.toNat * 1024 + len.toNat := by
  unfold header
  rw [append_toNat, append_toNat, append_toNat]
  simp only [BitVec.toNat_zero]
  omega

theorem opField_toNat (hdr : BitVec 16) : (opField hdr).toNat = hdr.toNat / 4096 := by
  have := hdr.isLt
  unfold opField
  rw [BitVec.extractLsb'_toNat, Nat.shiftRight_eq_div_pow]
  omega

theorem whField_toNat (hdr : BitVec 16) : (whField hdr).toNat = hdr.toNat / 1024 % 4 := by
  unfold whField
  rw [BitVec.extractLsb'_toNat, Nat.shiftRight_eq_div_pow]

theorem rsvField_toNat (hdr : BitVec 16) : (rsvField hdr).toNat = hdr.toNat / 256 % 4 := by
  unfold rsvField
  rw [BitVec.extractLsb'_toNat, Nat.shiftRight_eq_div_pow]

theorem lenField_toNat (hdr : BitVec 16) : (lenField hdr).toNat = hdr.toNat % 256 := by
  unfold lenField
  rw [BitVec.extractLsb'_toNat, Nat.shiftRight_eq_div_pow]
  omega

@[simp] theorem opField_header (op : BitVec 4) (wh : BitVec 2) (len : BitVec 8) :
    opField (header op wh len) = op := by
  apply BitVec.eq_of_toNat_eq
  rw [opField_toNat, header_toNat]
  omega

@[simp] theorem whField_header (op : BitVec 4) (wh : BitVec 2) (len : BitVec 8) :
    whField (header op wh len) = wh := by
  apply BitVec.eq_of_toNat_eq
  rw [whField_toNat, header_toNat]
  omega

@[simp] theorem rsvField_header (op : BitVec 4) (wh : BitVec 2) (len : BitVec 8) :
    rsvField (header op wh len) = 0 := by
  apply BitVec.eq_of_toNat_eq
  rw [rsvField_toNat, header_toNat]
  simp only [BitVec.toNat_zero, BitVec.ofNat_eq_ofNat]
  omega

@[simp] theorem lenField_header (op : BitVec 4) (wh : BitVec 2) (len : BitVec 8) :
    lenField (header op wh len) = len := by
  apply BitVec.eq_of_toNat_eq
  rw [lenField_toNat, header_toNat]
  omega

/-- A reserved opcode is an error (R68). -/
theorem decode_reserved {c : Command} (h : opField c.hdr = 0 ∨ 8 ≤ (opField c.hdr).toNat) :
    decode c = .error (.reservedOpcode (opField c.hdr)) := by
  unfold decode
  split <;> first
    | rfl
    | (rename_i e; exfalso; rcases h with h | h <;> [(rw [h] at e; revert e; decide); omega])

/-- Everything the decoder can answer, by opcode (R63, R68). -/
theorem decode_cases (c : Command) :
    (opField c.hdr = 1 ∧ decode c = .ok (.loadiv (lenField c.hdr) c.arg)) ∨
    (opField c.hdr = 2 ∧ decode c = .ok .getmode) ∨
    (opField c.hdr = 3 ∧ decode c = .ok .reqpad) ∨
    (opField c.hdr = 4 ∧ decode c = .ok .supseek) ∨
    (opField c.hdr = 5 ∧ decode c = .ok .getiv) ∨
    (opField c.hdr = 6 ∧ decode c = .ok (.advance c.arg)) ∨
    (opField c.hdr = 7 ∧ decode c = .ok (.seek (whenceOf (whField c.hdr)) c.arg)) ∨
    ((opField c.hdr = 0 ∨ 8 ≤ (opField c.hdr).toNat) ∧
      decode c = .error (.reservedOpcode (opField c.hdr))) := by
  have named : ∀ k : BitVec 4, (opField c.hdr).toNat = k.toNat → opField c.hdr = k :=
    fun _ h => BitVec.eq_of_toNat_eq h
  have split9 : ∀ n : Nat, n = 0 ∨ n = 1 ∨ n = 2 ∨ n = 3 ∨ n = 4 ∨ n = 5 ∨ n = 6 ∨ n = 7 ∨ 8 ≤ n := by
    omega
  rcases split9 (opField c.hdr).toNat with h | h | h | h | h | h | h | h | h
  · have o := named 0 h
    simp only [o, decode_reserved (.inl o)]
    simp
  · simp only [named 1 h]; simp [decode, h]
  · simp only [named 2 h]; simp [decode, h]
  · simp only [named 3 h]; simp [decode, h]
  · simp only [named 4 h]; simp [decode, h]
  · simp only [named 5 h]; simp [decode, h]
  · simp only [named 6 h]; simp [decode, h]
  · simp only [named 7 h]; simp [decode, h]
  · exact .inr (.inr (.inr (.inr (.inr (.inr (.inr ⟨.inr h, decode_reserved (.inr h)⟩))))))

end Sys2Proof
end

