-- ==== Sys2Proof/Laws/Operands.lean ====
section
/-! SUPPORT. The operand functions as arithmetic on natural numbers (R88, R89, R42), and the causes a
`SEEK` can be refused for. -/

namespace Sys2Proof.Machine

open Sys2Proof

/-- The low four bits of an operand are its remainder by the block size. -/
theorem low_bits_zero_iff (v : BitVec 128) : v.extractLsb' 0 4 = 0 ↔ v.toNat % 16 = 0 := by
  constructor
  · intro h; simpa using congrArg BitVec.toNat h
  · intro h; apply BitVec.eq_of_toNat_eq; simpa using h

/-- `PARTIAL` as arithmetic (R88). -/
theorem isPartial_eq (bytes : BitVec 128) : isPartial bytes = decide (bytes.toNat % 16 ≠ 0) := by
  rw [Bool.eq_iff_iff]
  simp only [isPartial, bne_iff_ne, ne_eq, decide_eq_true_eq, low_bits_zero_iff]

/-- `NS` as arithmetic (R89). -/
theorem seekBlocks_toNat (offset : BitVec 128) :
    (seekBlocks offset).toNat = offset.toNat / 16 % 2 ^ 123 := by
  unfold seekBlocks
  rw [BitVec.toNat_setWidth, BitVec.extractLsb'_toNat, Nat.shiftRight_eq_div_pow]
  omega

/-- A byte of a value as arithmetic (R42). -/
theorem byteOf_toNat (v : BitVec 128) (j : Nat) :
    (byteOf v j).toNat = v.toNat / 2 ^ (120 - 8 * j) % 256 := by
  unfold byteOf
  rw [BitVec.extractLsb'_toNat, Nat.shiftRight_eq_div_pow]

/-- A two's complement operand by its sign bit. -/
theorem toInt_by_sign (v : BitVec 128) :
    (v.msb = false ∧ v.toInt = v.toNat ∧ v.toNat < 2 ^ 127) ∨
      (v.msb = true ∧ v.toInt = v.toNat - 2 ^ 128 ∧ 2 ^ 127 ≤ v.toNat) := by
  have := v.isLt
  rw [BitVec.msb_eq_decide, BitVec.toInt_eq_toNat_cond]
  by_cases h : 2 ^ 127 ≤ v.toNat
  · right; simp; omega
  · left; simp; omega

/-- The causes of R168. -/
theorem seekRefusal_causes {whence : Whence} {offset : BitVec 128} {cause : Cause}
    (h : seekRefusal whence offset = some cause) :
    cause = .align ∨ cause = .whence ∨ cause = .negAbs ∨ cause = .negRel := by
  unfold seekRefusal at h
  repeat' split at h
  all_goals simp_all

end Sys2Proof.Machine
end

