-- ==== Sys2Proof/Laws/PerInstr.lean ====
section
/-! SUPPORT. A statement about every instruction as syntax: the header its encoding has. -/

namespace Sys2Proof.Laws

open Sys2Proof

/-- The encoding of an instruction has the opcode of its row in `OP`, 0 in `RSV`, and 0 in `LEN`,
`WH` and `cmd_arg` where its row does not use them (R63, R70). -/
def EncodeHeader.Statement (i : Instr) : Prop :=
  opField (encode i).hdr = opcodeOf i ∧
  rsvField (encode i).hdr = 0 ∧
  (opcodeOf i ≠ 0x1 → lenField (encode i).hdr = 0) ∧
  (opcodeOf i ≠ 0x7 → whField (encode i).hdr = 0) ∧
  (opcodeOf i ≠ 0x1 → opcodeOf i ≠ 0x6 → opcodeOf i ≠ 0x7 → (encode i).arg = 0)

theorem EncodeHeader.loadiv (len : BitVec 8) (iv : BitVec 128) :
    EncodeHeader.Statement (.loadiv len iv) := by
  simp [EncodeHeader.Statement, encode, opcodeOf]

theorem EncodeHeader.getmode : EncodeHeader.Statement .getmode := by
  simp [EncodeHeader.Statement, encode, opcodeOf]

theorem EncodeHeader.reqpad : EncodeHeader.Statement .reqpad := by
  simp [EncodeHeader.Statement, encode, opcodeOf]

theorem EncodeHeader.supseek : EncodeHeader.Statement .supseek := by
  simp [EncodeHeader.Statement, encode, opcodeOf]

theorem EncodeHeader.getiv : EncodeHeader.Statement .getiv := by
  simp [EncodeHeader.Statement, encode, opcodeOf]

theorem EncodeHeader.advance (bytes : BitVec 128) : EncodeHeader.Statement (.advance bytes) := by
  simp [EncodeHeader.Statement, encode, opcodeOf]

theorem EncodeHeader.seek (whence : Whence) (offset : BitVec 128) :
    EncodeHeader.Statement (.seek whence offset) := by
  simp [EncodeHeader.Statement, encode, opcodeOf]

end Sys2Proof.Laws
end

