-- ==== Sys2Proof/Laws/State.lean ====
section
/-! SUPPORT. Each field of the state after each named operation, so that no proof unfolds a record
update. -/

namespace Sys2Proof.Machine

open Sys2Proof

@[simp] theorem respond_base (st : Status) (ca : Cause) (d : BitVec 128) (s : State) :
    (respond st ca d s).base = s.base := rfl
@[simp] theorem respond_ofs (st : Status) (ca : Cause) (d : BitVec 128) (s : State) :
    (respond st ca d s).ofs = s.ofs := rfl
@[simp] theorem respond_valid (st : Status) (ca : Cause) (d : BitVec 128) (s : State) :
    (respond st ca d s).valid = s.valid := rfl
@[simp] theorem respond_inFlight (st : Status) (ca : Cause) (d : BitVec 128) (s : State) :
    (respond st ca d s).inFlight = none := rfl
@[simp] theorem respond_rsp (st : Status) (ca : Cause) (d : BitVec 128) (s : State) :
    (respond st ca d s).rsp = some ⟨st, ca, d⟩ := rfl
@[simp] theorem respond_inputs (st : Status) (ca : Cause) (d : BitVec 128) (s : State) :
    (respond st ca d s).inputs = s.inputs := rfl
@[simp] theorem respond_taken (st : Status) (ca : Cause) (d : BitVec 128) (s : State) :
    (respond st ca d s).taken = s.taken := rfl

@[simp] theorem raise_base (st : Status) (ca : Cause) (s : State) :
    (raise st ca s).base = s.base := rfl
@[simp] theorem raise_ofs (st : Status) (ca : Cause) (s : State) :
    (raise st ca s).ofs = s.ofs := rfl
@[simp] theorem raise_valid (st : Status) (ca : Cause) (s : State) :
    (raise st ca s).valid = s.valid := rfl
@[simp] theorem raise_inFlight (st : Status) (ca : Cause) (s : State) :
    (raise st ca s).inFlight = none := rfl
@[simp] theorem raise_rsp (st : Status) (ca : Cause) (s : State) :
    (raise st ca s).rsp = some ⟨st, ca, 0⟩ := rfl
@[simp] theorem raise_inputs (st : Status) (ca : Cause) (s : State) :
    (raise st ca s).inputs = s.inputs := rfl
@[simp] theorem raise_taken (st : Status) (ca : Cause) (s : State) :
    (raise st ca s).taken = s.taken := rfl

@[simp] theorem construct_base (iv : BitVec 128) (s : State) :
    (construct iv s).base = split iv := rfl
@[simp] theorem construct_ofs (iv : BitVec 128) (s : State) : (construct iv s).ofs = split 0 := rfl
@[simp] theorem construct_valid (iv : BitVec 128) (s : State) : (construct iv s).valid = true := rfl
@[simp] theorem construct_inFlight (iv : BitVec 128) (s : State) :
    (construct iv s).inFlight = s.inFlight := rfl
@[simp] theorem construct_rsp (iv : BitVec 128) (s : State) : (construct iv s).rsp = s.rsp := rfl
@[simp] theorem construct_inputs (iv : BitVec 128) (s : State) :
    (construct iv s).inputs = s.inputs := rfl
@[simp] theorem construct_taken (iv : BitVec 128) (s : State) :
    (construct iv s).taken = s.taken := rfl

@[simp] theorem writeOfs_base (c : Counter) (s : State) : (writeOfs c s).base = s.base := rfl
@[simp] theorem writeOfs_ofs (c : Counter) (s : State) : (writeOfs c s).ofs = c := rfl
@[simp] theorem writeOfs_valid (c : Counter) (s : State) : (writeOfs c s).valid = s.valid := rfl
@[simp] theorem writeOfs_inFlight (c : Counter) (s : State) :
    (writeOfs c s).inFlight = s.inFlight := rfl
@[simp] theorem writeOfs_rsp (c : Counter) (s : State) : (writeOfs c s).rsp = s.rsp := rfl
@[simp] theorem writeOfs_inputs (c : Counter) (s : State) : (writeOfs c s).inputs = s.inputs := rfl
@[simp] theorem writeOfs_taken (c : Counter) (s : State) : (writeOfs c s).taken = s.taken := rfl

@[simp] theorem nextBeat_base (s : State) : (nextBeat s).base = s.base := rfl
@[simp] theorem nextBeat_ofs (s : State) : (nextBeat s).ofs = s.ofs := rfl
@[simp] theorem nextBeat_valid (s : State) : (nextBeat s).valid = s.valid := rfl
@[simp] theorem nextBeat_inFlight (s : State) : (nextBeat s).inFlight = s.inFlight := rfl
@[simp] theorem nextBeat_rsp (s : State) : (nextBeat s).rsp = s.rsp := rfl
@[simp] theorem nextBeat_inputs (s : State) : (nextBeat s).inputs = s.inputs.tail := rfl
@[simp] theorem nextBeat_taken (s : State) : (nextBeat s).taken = s.taken := rfl

@[simp] theorem acceptCommand_base (c : Command) (s : State) :
    (acceptCommand c s).base = s.base := rfl
@[simp] theorem acceptCommand_ofs (c : Command) (s : State) : (acceptCommand c s).ofs = s.ofs := rfl
@[simp] theorem acceptCommand_valid (c : Command) (s : State) :
    (acceptCommand c s).valid = s.valid := rfl
@[simp] theorem acceptCommand_inFlight (c : Command) (s : State) :
    (acceptCommand c s).inFlight = some c := rfl
@[simp] theorem acceptCommand_rsp (c : Command) (s : State) : (acceptCommand c s).rsp = s.rsp := rfl
@[simp] theorem acceptCommand_inputs (c : Command) (s : State) :
    (acceptCommand c s).inputs = s.inputs := rfl
@[simp] theorem acceptCommand_taken (c : Command) (s : State) :
    (acceptCommand c s).taken = s.taken := rfl

@[simp] theorem deliverResponse_base (r : Response) (s : State) :
    (deliverResponse r s).base = s.base := rfl
@[simp] theorem deliverResponse_ofs (r : Response) (s : State) :
    (deliverResponse r s).ofs = s.ofs := rfl
@[simp] theorem deliverResponse_valid (r : Response) (s : State) :
    (deliverResponse r s).valid = s.valid := rfl
@[simp] theorem deliverResponse_inFlight (r : Response) (s : State) :
    (deliverResponse r s).inFlight = s.inFlight := rfl
@[simp] theorem deliverResponse_rsp (r : Response) (s : State) :
    (deliverResponse r s).rsp = none := rfl
@[simp] theorem deliverResponse_inputs (r : Response) (s : State) :
    (deliverResponse r s).inputs = s.inputs := rfl
@[simp] theorem deliverResponse_taken (r : Response) (s : State) :
    (deliverResponse r s).taken = s.taken ++ [r] := rfl

@[simp] theorem assertReset_base (s : State) : (assertReset s).base = zeroCounter := rfl
@[simp] theorem assertReset_ofs (s : State) : (assertReset s).ofs = zeroCounter := rfl
@[simp] theorem assertReset_valid (s : State) : (assertReset s).valid = false := rfl
@[simp] theorem assertReset_inFlight (s : State) : (assertReset s).inFlight = none := rfl
@[simp] theorem assertReset_rsp (s : State) : (assertReset s).rsp = none := rfl
@[simp] theorem assertReset_inputs (s : State) : (assertReset s).inputs = s.inputs := rfl
@[simp] theorem assertReset_taken (s : State) : (assertReset s).taken = s.taken := rfl

end Sys2Proof.Machine
end

