-- ==== Sys2Proof/Laws/Step.lean ====
section
/-! SUPPORT. Everything a command and a step can do, said once. -/

namespace Sys2Proof.Machine

open Sys2Proof

/-- A command that runs offers its response, is over, and leaves the outside alone (R32). -/
theorem exec_answers (i : Instr) (s : State) :
    ∃ t r, exec i s = .next t ∧ t.inFlight = none ∧ t.rsp = some r ∧
      t.inputs = s.inputs ∧ t.taken = s.taken := by
  cases i <;>
    simp only [exec, execLoadiv, execGetmode, execReqpad, execSupseek, execGetiv, execAdvance,
      execSeek] <;>
    (repeat' split) <;> exact ⟨_, _, rfl, rfl, rfl, rfl, rfl⟩

/-- The same of any command, decodable or not (R32, R165). -/
theorem runCommand_answers (c : Command) (s : State) :
    ∃ t r, runCommand c s = .next t ∧ t.inFlight = none ∧ t.rsp = some r ∧
      t.inputs = s.inputs ∧ t.taken = s.taken := by
  unfold runCommand
  split
  · exact exec_answers _ _
  · exact ⟨_, _, rfl, rfl, rfl, rfl, rfl⟩

/-- What a command does depends neither on what is in flight nor on the beats to come. -/
theorem runCommand_ignores_outside (c : Command) (s u : State) (x : Option Command)
    (inputs : List Beat) (h : runCommand c s = .next u) :
    runCommand c { s with inFlight := x, inputs := inputs } =
      .next { u with inputs := inputs } := by
  unfold runCommand at *
  split at h
  · rename_i i _
    cases i <;>
      simp only [exec, execLoadiv, execGetmode, execReqpad, execSupseek, execGetiv, execAdvance,
        execSeek] at * <;>
      (try split at h) <;> (try split at h) <;> cases h <;>
      simp_all [noEngine, raise, respond, construct, writeOfs, currentIv]
  · cases h
    simp [raise, respond]

/-- Everything a step can do: reset; a command in flight waits, or runs; a response is taken, or
waits; a command is accepted; or nothing. -/
theorem step_cases {s t : State} (h : step s = .next t) :
    ((currentBeat s).rst = true ∧ t = assertReset (nextBeat s)) ∨
    ((currentBeat s).rst = false ∧ ∃ c, s.inFlight = some c ∧
      ((currentBeat s).busy = true ∧ t = nextBeat s ∨
        (currentBeat s).busy = false ∧ runCommand c (nextBeat s) = .next t)) ∨
    ((currentBeat s).rst = false ∧ s.inFlight = none ∧ ∃ r, s.rsp = some r ∧
      ((currentBeat s).rspReady = true ∧ t = deliverResponse r (nextBeat s) ∨
        (currentBeat s).rspReady = false ∧ t = nextBeat s)) ∨
    ((currentBeat s).rst = false ∧ s.inFlight = none ∧ s.rsp = none ∧
      ((∃ c, (currentBeat s).offer = some c ∧ t = acceptCommand c (nextBeat s)) ∨
        (currentBeat s).offer = none ∧ t = nextBeat s)) := by
  unfold step serveBeat at h
  cases hr : (currentBeat s).rst with
  | true => rw [hr] at h; cases h; exact .inl ⟨rfl, rfl⟩
  | false =>
    rw [hr] at h
    simp only [Bool.false_eq_true, if_false, nextBeat_inFlight] at h
    cases hf : s.inFlight with
    | some c =>
      rw [hf] at h
      cases hb : (currentBeat s).busy with
      | true => rw [hb] at h; cases h; exact .inr (.inl ⟨rfl, c, rfl, .inl ⟨rfl, rfl⟩⟩)
      | false => rw [hb] at h; exact .inr (.inl ⟨rfl, c, rfl, .inr ⟨rfl, h⟩⟩)
    | none =>
      rw [hf] at h
      cases h
      cases hp : s.rsp with
      | some r =>
        refine .inr (.inr (.inl ⟨rfl, rfl, r, rfl, ?_⟩))
        cases hd : (currentBeat s).rspReady <;> simp [transfer, hp, hd]
      | none =>
        refine .inr (.inr (.inr ⟨rfl, rfl, rfl, ?_⟩))
        cases ho : (currentBeat s).offer <;> simp [transfer, hp, ho]

/-- Every step ends the beat. -/
theorem step_inputs {s t : State} (h : step s = .next t) : t.inputs = s.inputs.tail := by
  rcases step_cases h with ⟨-, rfl⟩ | ⟨-, c, -, ⟨-, rfl⟩ | ⟨-, hc⟩⟩ |
    ⟨-, -, r, -, ⟨-, rfl⟩ | ⟨-, rfl⟩⟩ | ⟨-, -, -, ⟨c, -, rfl⟩ | ⟨-, rfl⟩⟩
  · rfl
  · rfl
  · obtain ⟨u, r, hu, -, -, hi, -⟩ := runCommand_answers c (nextBeat s)
    rw [hc] at hu
    cases hu
    exact hi
  · rfl
  · rfl
  · rfl
  · rfl

end Sys2Proof.Machine
end

