-- ==== Sys2Proof/Tests/Slice0.lean ====
section
/-! SUPPORT. The model's own tests. Expected results are the spec's vectors (`95_test_vectors.md`, named
at each test) or the encodings of `30_encoding.md`; the witnesses at the end show, for each statement
with hypotheses, a concrete state and operands that meet them together. -/

namespace Sys2Proof.Tests

open Sys2Proof
open Sys2Proof.Machine
open Sys2Proof.Safety

/-- An engine with the given counters. -/
def active (base ofs : BitVec 128) : State :=
  { State.reset with base := split base, ofs := split ofs, valid := true }

/-- The engine of most of the spec's vectors. -/
def engine (ofs : BitVec 128) : State := active 0x000102030405060708090a0b0c0d0e0f ofs

/-- What a vector shows of one command: `VALID`, `BASE`, `OFS` and the response after it. -/
def after (c : Command) (s : State) : Option (Bool × BitVec 128 × BitVec 128 × Option Response) :=
  match runCommand c s with
  | .next t => some (t.valid, join t.base, join t.ofs, t.rsp)
  | .fault _ => none
  | .refused _ => none

/-- The state of a step that has one. -/
def nextOf (o : Host.Outcome State Fault Refusal) : Option State :=
  match o with
  | .next t => some t
  | .fault _ => none
  | .refused _ => none

/-! ### Well-formed lines: one ill-formed line for each check -/

theorem test_line_length_too_long : (AsmLine.loadiv (some 256) 0).wellFormed = false := by decide
theorem test_line_iv_too_wide : (AsmLine.loadiv none (2 ^ 128)).wellFormed = false := by decide
theorem test_line_advance_too_wide : (AsmLine.advance (2 ^ 128)).wellFormed = false := by decide
theorem test_line_update_too_wide : (AsmLine.update (2 ^ 128)).wellFormed = false := by decide
theorem test_line_offset_too_low :
    (AsmLine.seek (-(2 : Int) ^ 127 - 1) .start).wellFormed = false := by decide
theorem test_line_offset_too_high :
    (AsmLine.seek ((2 : Int) ^ 127) .current).wellFormed = false := by decide
theorem test_line_origin_unknown : (AsmLine.seek 0 (.number 4)).wellFormed = false := by decide
theorem test_line_header_too_wide : (AsmLine.cmd (2 ^ 16) 0).wellFormed = false := by decide
theorem test_line_argument_too_wide : (AsmLine.cmd 0 (2 ^ 128)).wellFormed = false := by decide
theorem test_line_well_formed :
    (AsmLine.seek (-(2 : Int) ^ 127) (.number 3)).wellFormed = true := by decide

/-! ### Decoding: words written out bit by bit from R60, `OP WH RSV LEN` -/

theorem test_decode_loadiv :
    decode ⟨0b0001_00_00_00010000, 7⟩ = .ok (.loadiv 16 7) := rfl
theorem test_decode_loadiv_ignored_bits :
    decode ⟨0b0001_11_11_00001111, 7⟩ = .ok (.loadiv 15 7) := rfl
theorem test_decode_getmode : decode ⟨0b0010_00_00_00000000, 0⟩ = .ok .getmode := rfl
theorem test_decode_reqpad : decode ⟨0b0011_00_00_00000000, 0⟩ = .ok .reqpad := rfl
theorem test_decode_supseek :
    decode ⟨0b0100_11_11_11111111, BitVec.allOnes 128⟩ = .ok .supseek := rfl
theorem test_decode_getiv : decode ⟨0b0101_00_00_00000000, 0⟩ = .ok .getiv := rfl
theorem test_decode_advance : decode ⟨0b0110_00_00_00000000, 17⟩ = .ok (.advance 17) := rfl
theorem test_decode_seek_start : decode ⟨0b0111_00_00_00000000, 32⟩ = .ok (.seek .start 32) := rfl
theorem test_decode_seek_current :
    decode ⟨0b0111_01_11_11111111, 32⟩ = .ok (.seek .current 32) := rfl
theorem test_decode_seek_origins :
    decode ⟨0b0111_10_00_00000000, 0⟩ = .ok (.seek .unrecognised2 0) ∧
      decode ⟨0b0111_11_00_00000000, 0⟩ = .ok (.seek .unrecognised3 0) := ⟨rfl, rfl⟩
theorem test_decode_reserved :
    decode ⟨0b0000_00_00_00000000, 0⟩ = .error (.reservedOpcode 0x0) ∧
      decode ⟨0b1000_00_00_00000000, 0⟩ = .error (.reservedOpcode 0x8) ∧
      decode ⟨0b1111_00_00_00010000, 16⟩ = .error (.reservedOpcode 0xf) := ⟨rfl, rfl, rfl⟩

/-- The seven rows of `opcode_table.json`, by their match words. -/
theorem test_table_rows :
    ([0x1000, 0x2000, 0x3000, 0x4000, 0x5000, 0x6000, 0x7000].map (decodeTableWord 16)) =
      [some (.loadiv 0 0), some .getmode, some .reqpad, some .supseek, some .getiv,
        some (.advance 0), some (.seek .start 0)] := by decide

/-- No two rows of the table match one header: they share the mask and differ in the match. -/
theorem test_table_rows_disjoint :
    List.Pairwise (fun a b : BitVec 16 => a &&& 0xf000 ≠ b &&& 0xf000)
      [0x1000, 0x2000, 0x3000, 0x4000, 0x5000, 0x6000, 0x7000] := by decide

/-- A word of the whole 144 bits: `SEEK -16, CURRENT` of R72. -/
theorem test_table_word_whole_command :
    decodeTableWord 144 (0xfffffffffffffffffffffffffffffff0 * 2 ^ 16 + 0x7400) =
      some (.seek .current 0xfffffffffffffffffffffffffffffff0) := by decide

/-! ### The assembler (R70, R72) -/

/-- `SEEK -16, CURRENT ; back` is the line of R72, and assembles to its listing. -/
theorem test_assemble_worked_line :
    readLine ['S', 'E', 'E', 'K', ' ', '-', '1', '6', ',', ' ', 'C', 'U', 'R', 'R', 'E', 'N', 'T',
        ' ', ';', ' ', 'b', 'a', 'c', 'k'] = .line (.seek (-16) .current) ∧
      (assemble (.seek (-16) .current)).map listing =
        some (['7', '4', '0', '0', ':'] ++ List.replicate 31 'f' ++ ['0']) := by
  decide

theorem test_read_hex_and_raw :
    readLine ['.', 'c', 'm', 'd', ' ', '0', 'x', '1', 'F', '1', '0', ',', '1', '2'] =
        .line (.cmd 0x1f10 12) ∧
      readLine ['U', 'P', 'D', 'A', 'T', 'E', ' ', '5'] = .line (.update 5) ∧
      readLine [' ', ';', 'x'] = .empty ∧
      readLine ['A', 'D', 'V', 'A', 'N', 'C', 'E', ' ', '-', '1'] = .unreadable := by decide

/-! ### The adder (section 2.1 of the vectors) -/

/-- V-ADD-4 and V-ADD-5. -/
theorem test_adder_ripples :
    join (add128w (split 0x0001ffffffffffffffffffffffffffff) (split 1)) =
        0x00020000000000000000000000000000 ∧
      join (add128w (split 0x0000000000000000ffff0000ffff0000)
        (split 0x00000000000000000000ffff0000ffff)) = 0x0000000000000000ffffffffffffffff := by
  decide

/-- V-ADD-7 and V-ADD-9. -/
theorem test_adder_discards_top_carry :
    join (add128w (split 0x80000000000000000000000000000000)
        (split 0x80000000000000000000000000000000)) = 0 ∧
      join (add128w (split 0x0123456789abcdef0123456789abcdef)
        (split 0xfedcba9876543210fedcba9876543210)) = 0xffffffffffffffffffffffffffffffff := by
  decide

/-! ### One command each (sections 2.4 to 2.8 of the vectors) -/

/-- V-LD-6, and the words of the example of R100. -/
theorem test_loadiv_constructs :
    after ⟨0x1010, 0xffffffffffffffffffffffffffffffff⟩ (engine 5) =
        some (true, 0xffffffffffffffffffffffffffffffff, 0, some ⟨.ok, .none, 0⟩) ∧
      split 0x000102030405060708090a0b0c0d0e0f =
        ⟨0x0001, 0x0203, 0x0405, 0x0607, 0x0809, 0x0a0b, 0x0c0d, 0x0e0f⟩ := by decide

/-- V-LD-7: a refused construction leaves the old engine. -/
theorem test_loadiv_bad_length :
    after ⟨0x100f, 0xffffffffffffffffffffffffffffffff⟩ (engine 5) =
      some (true, 0x000102030405060708090a0b0c0d0e0f, 5, some ⟨.invalidInput, .badLen, 0⟩) := by
  decide

/-- V-AC-1. -/
theorem test_getmode : after ⟨0x2000, 0⟩ State.reset = some (false, 0, 0, some ⟨.ok, .none, 1⟩) := by
  decide

/-- V-AC-2. -/
theorem test_reqpad : after ⟨0x3000, 0⟩ State.reset = some (false, 0, 0, some ⟨.ok, .none, 0⟩) := by
  decide

/-- V-AC-5: every ignored bit set. -/
theorem test_supseek :
    after ⟨0x4fff, 0xffffffffffffffffffffffffffffffff⟩ (engine 7) =
      some (true, 0x000102030405060708090a0b0c0d0e0f, 7, some ⟨.ok, .none, 1⟩) := by decide

/-- V-IV-7: a carry across four words. -/
theorem test_getiv_carries :
    after ⟨0x5000, 0⟩ (active 0x0000000000000000ffffffffffffffff 0x10) =
      some (true, 0x0000000000000000ffffffffffffffff, 0x10,
        some ⟨.ok, .none, 0x0000000000000001000000000000000f⟩) := by decide

/-- V-IV-1. -/
theorem test_getiv_no_engine :
    after ⟨0x5000, 0⟩ State.reset = some (false, 0, 0, some ⟨.noEngine, .none, 0⟩) := by decide

/-- V-ADV-5: 17 bytes are two blocks. -/
theorem test_advance_partial :
    after ⟨0x6000, 0x11⟩ (engine 0) =
      some (true, 0x000102030405060708090a0b0c0d0e0f, 2, some ⟨.ok, .partialBlock, 0⟩) := by decide

/-- V-ADV-10: the offset wraps silently. -/
theorem test_advance_wraps :
    after ⟨0x6000, 0x100000⟩ (engine 0xffffffffffffffffffffffffffff0000) =
      some (true, 0x000102030405060708090a0b0c0d0e0f, 0, some ⟨.ok, .none, 0⟩) := by decide

/-- V-SK-16 and V-SK-18: the largest accepted offset, and a relative seek with a carry. -/
theorem test_seek_accepted :
    after ⟨0x7000, 0x7ffffffffffffffffffffffffffffff0⟩ (engine 9) =
        some (true, 0x000102030405060708090a0b0c0d0e0f, 0x07ffffffffffffffffffffffffffffff,
          some ⟨.ok, .none, 0⟩) ∧
      after ⟨0x7400, 0x100000⟩ (engine 0xffff) =
        some (true, 0x000102030405060708090a0b0c0d0e0f, 0x1ffff, some ⟨.ok, .none, 0⟩) := by decide

/-- V-SK-10, V-SK-14, V-SK-15, V-SK-9: the order of the checks. -/
theorem test_seek_refused :
    ([(⟨0x7000, 0xffffffffffffffffffffffffffffffff⟩ : Command),
        ⟨0x7800, 0xfffffffffffffffffffffffffffffff0⟩,
        ⟨0x7000, 0x80000000000000000000000000000000⟩,
        ⟨0x7400, 0xfffffffffffffffffffffffffffffff0⟩].map fun c => after c (engine 9)) =
      [Cause.align, Cause.whence, Cause.negAbs, Cause.negRel].map fun cause =>
        some (true, 0x000102030405060708090a0b0c0d0e0f, 9, some ⟨.unsupported, cause, 0⟩) := by
  decide

/-- V-IL-1 and V-IL-4. -/
theorem test_reserved_opcodes :
    after ⟨0x0000, 0⟩ State.reset = some (false, 0, 0, some ⟨.illegalCmd, .none, 0⟩) ∧
      after ⟨0xf010, 0x10⟩ (engine 9) =
        some (true, 0x000102030405060708090a0b0c0d0e0f, 9, some ⟨.illegalCmd, .none, 0⟩) := by
  decide

/-! ### The channels -/

/-- From reset, with a table word placed, the next step runs it (here `LOADIV` with length 0). -/
theorem test_first_word_after_reset :
    nextOf (step (State.reset.withFetchWord 16 0x1000)) =
      some { State.reset with rsp := some ⟨.invalidInput, .badLen, 0⟩ } := by decide

/-- R191: reset abandons the command in flight, with no response. -/
theorem test_reset_abandons_command :
    nextOf (step { engine 3 with
      inFlight := some ⟨0x5000, 0⟩
      inputs := [{ Beat.idle with rst := true }] }) = some State.reset := by decide

/-! ### Witnesses: hypotheses that can be met together -/

/-- An engine with a command in flight, in a beat in which nothing else happens. -/
def running (c : Command) : State := { engine 9 with inFlight := some c }

/-- A beat of reset. -/
def resetting : State := { engine 9 with inputs := [{ Beat.idle with rst := true }] }

/-- For `ResetBeatGivesResetState`, `OnlyResetEndsAnEngine` and the second clause of
`CommandsFollowStateTable`. -/
theorem witness_reset_beat :
    (currentBeat resetting).rst = true ∧ resetting.valid = true ∧
      ∃ t, step resetting = .next t ∧ t.valid = false := ⟨rfl, rfl, _, rfl, rfl⟩

/-- For the three clauses of `StepRunsDecodedInstruction`. -/
theorem witness_step_runs :
    ((running ⟨0x6000, 16⟩).inFlight = some ⟨0x6000, 16⟩ ∧
      (currentBeat (running ⟨0x6000, 16⟩)).rst = false ∧
      (currentBeat (running ⟨0x6000, 16⟩)).busy = false ∧
      decode ⟨0x6000, 16⟩ = .ok (.advance 16)) ∧
    ((running ⟨0xf000, 0⟩).inFlight = some ⟨0xf000, 0⟩ ∧
      (currentBeat (running ⟨0xf000, 0⟩)).rst = false ∧
      (currentBeat (running ⟨0xf000, 0⟩)).busy = false ∧
      decode ⟨0xf000, 0⟩ = .error (.reservedOpcode 0xf)) ∧
    (let s := { running ⟨0x6000, 16⟩ with inputs := [{ Beat.idle with busy := true }] };
      s.inFlight = some ⟨0x6000, 16⟩ ∧ (currentBeat s).rst = false ∧
        (currentBeat s).busy = true) :=
  ⟨⟨rfl, rfl, rfl, rfl⟩, ⟨rfl, rfl, rfl, rfl⟩, rfl, rfl, rfl⟩

/-- For `FetchedWordRunsNext`. -/
theorem witness_fetched_word : decodeTableWord 16 0x6000 = some (.advance 0) := by decide

/-- For the four clauses of `ChannelTransfers`. -/
theorem witness_channel_transfers :
    (let s := { engine 9 with inputs := [{ Beat.idle with offer := some ⟨0x5000, 0⟩ }] };
      (currentBeat s).rst = false ∧ s.inFlight = none ∧ s.rsp = none ∧
        (currentBeat s).offer = some ⟨0x5000, 0⟩) ∧
    (let s := { engine 9 with
        rsp := some ⟨.ok, .none, 0⟩, inputs := [{ Beat.idle with rspReady := true }] };
      (currentBeat s).rst = false ∧ s.inFlight = none ∧ s.rsp = some ⟨.ok, .none, 0⟩ ∧
        (currentBeat s).rspReady = true) ∧
    (let s := { engine 9 with rsp := some ⟨.ok, .none, 0⟩ };
      (currentBeat s).rst = false ∧ s.inFlight = none ∧ s.rsp = some ⟨.ok, .none, 0⟩ ∧
        (currentBeat s).rspReady = false) ∧
    (∃ t, step (running ⟨0x5000, 0⟩) = .next t ∧
      ((running ⟨0x5000, 0⟩).inFlight.isSome = true ∨
        (running ⟨0x5000, 0⟩).rsp.isSome = true)) :=
  ⟨⟨rfl, rfl, rfl, rfl⟩, ⟨rfl, rfl, rfl, rfl⟩, ⟨rfl, rfl, rfl, rfl⟩, _, rfl, .inl rfl⟩

/-- For `ReservedOpcodesAreIllegal`, at both ends of both ranges. -/
theorem witness_reserved_opcodes :
    opField 0x0fff = 0x0 ∧ 0x8 ≤ (opField 0x8000).toNat ∧ 0x8 ≤ (opField 0xffff).toNat := by decide

/-- For `UnusedFieldsAreIgnored`: two `LOADIV`s, two `ADVANCE`s and two `SEEK`s that differ in bits
they do not use. -/
theorem witness_unused_fields :
    (opField 0x1f10 = opField 0x1010 ∧ lenField 0x1f10 = lenField 0x1010) ∧
      opField 0x6fff = opField 0x6000 ∧
      (opField 0x77ff = opField 0x7400 ∧ whField 0x77ff = whField 0x7400) := by decide

/-- For `EncodeOfDecode`. -/
theorem witness_encode_of_decode :
    decode ⟨0x7c00, 16⟩ = .ok (.seek .unrecognised3 16) ∧ rsvField 0x7c00 = 0 ∧
      opField 0x7c00 ≠ 0x1 ∧ lenField 0x7c00 = 0 ∧ opField 0x7c00 = 0x7 := ⟨rfl, by decide⟩

/-- For the clauses of `AssembledLinesEncodeInstructions`, at the ends of their ranges. -/
theorem witness_lines_in_range :
    (255 : Nat) < 256 ∧ (2 ^ 128 - 1 : Nat) < 2 ^ 128 ∧ (-2 ^ 127 : Int) ≤ -2 ^ 127 ∧
      (2 ^ 127 - 1 : Int) < 2 ^ 127 := by decide

/-- For `BytesAreBigEndian` and `SplitAndJoinAreInverse`: the last word, of a loaded IV and of an
engine. -/
theorem witness_last_word :
    (7 : Nat) < 8 ∧ (∃ t, exec (.loadiv 16 1) (engine 9) = .next t) ∧ (engine 9).valid = true :=
  ⟨by decide, ⟨_, rfl⟩, rfl⟩

/-- For `SeekBlocksAreExact`, at the largest offset, and for `AdvanceBlocksRoundUp`. -/
theorem witness_seek_blocks :
    (engine 9).valid = true ∧
      0 ≤ (0x7ffffffffffffffffffffffffffffff0 : BitVec 128).toInt ∧
      (0x7ffffffffffffffffffffffffffffff0 : BitVec 128).toInt % 16 = 0 := by decide

/-- For `LoadivConstructsEngine` and `RefusedLoadivWritesNothing`: lengths on both sides of 16. -/
theorem witness_bad_lengths :
    opField 0x1010 = 0x1 ∧ (15 : BitVec 8) ≠ 16 ∧ (17 : BitVec 8) ≠ 16 := by decide

/-- For the decode clauses of `ModeQueriesAnswerConstants`, `GetivAnswersCurrentIv`,
`AdvanceAddsBlocks` and `SeekFollowsItsRule`, and of `OpcodeAloneDecides`. -/
theorem witness_opcodes :
    opField 0x2000 = 0x2 ∧ opField 0x3000 = 0x3 ∧ opField 0x4000 = 0x4 ∧ opField 0x5000 = 0x5 ∧
      opField 0x6000 = 0x6 ∧ opField 0x7000 = 0x7 := by decide

/-- For the clauses of `GetivAnswersCurrentIv`, `AdvanceAddsBlocks`, `SeekFollowsItsRule`,
`NoEngineRefusals`, `AdvanceSequencesAdd` and `ValidRecordsConstruction` on `VALID`. -/
theorem witness_both_modes : (engine 9).valid = true ∧ State.reset.valid = false := ⟨rfl, rfl⟩

/-- For the clauses of `SeekFollowsItsRule` on the offset: misaligned; aligned and negative, at both
ends; aligned and not negative, at both ends. The origins exclude each other by their form. -/
theorem witness_seek_clauses :
    (1 : BitVec 128).toInt % 16 ≠ 0 ∧
      ((0xfffffffffffffffffffffffffffffff0 : BitVec 128).toInt % 16 = 0 ∧
        (0xfffffffffffffffffffffffffffffff0 : BitVec 128).toInt < 0) ∧
      ((0x80000000000000000000000000000000 : BitVec 128).toInt % 16 = 0 ∧
        (0x80000000000000000000000000000000 : BitVec 128).toInt < 0) ∧
      ((0 : BitVec 128).toInt % 16 = 0 ∧ 0 ≤ (0 : BitVec 128).toInt) ∧
      ((0x7ffffffffffffffffffffffffffffff0 : BitVec 128).toInt % 16 = 0 ∧
        0 ≤ (0x7ffffffffffffffffffffffffffffff0 : BitVec 128).toInt) := by decide

/-- For `SeekNeverRounds`. -/
theorem witness_misaligned_seek :
    (∃ t, exec (.seek .start 15) (engine 9) = .next t) ∧ (15 : BitVec 128).toNat % 16 ≠ 0 :=
  ⟨⟨_, rfl⟩, by decide⟩

/-- For the second clause of `NoEngineRefusals`, for `CommandFrame` and for `ReadersAreIdempotent`. -/
theorem witness_query_answers :
    ∃ t r, exec .getmode State.reset = .next t ∧ t.rsp = some r := ⟨_, _, rfl, rfl⟩

/-- For the three clauses of `ErrorKindsByCommand`, and for `CodesNeverProduced`, `ResponseData` and
`ErrorsChangeNothing`: responses of each kind. -/
theorem witness_error_kinds :
    (∃ t r, runCommand ⟨0x1011, 0⟩ (engine 9) = .next t ∧ t.rsp = some r ∧
      r.status = .invalidInput) ∧
    (∃ t r, runCommand ⟨0x7000, 1⟩ (engine 9) = .next t ∧ t.rsp = some r ∧
      r.status = .unsupported) ∧
    (∃ t r, runCommand ⟨0x6000, 1⟩ (engine 9) = .next t ∧ t.rsp = some r ∧
      r.cause = .partialBlock) :=
  ⟨⟨_, _, rfl, rfl, rfl⟩, ⟨_, _, rfl, rfl, rfl⟩, ⟨_, _, rfl, rfl, rfl⟩⟩

/-- For the data clauses of `ResponseData`: a `GETIV` that succeeds. -/
theorem witness_getiv_succeeds :
    ∃ t r, runCommand ⟨0x5000, 0⟩ (engine 9) = .next t ∧ t.rsp = some r ∧
      decode ⟨0x5000, 0⟩ = .ok .getiv ∧ r.status = .ok := ⟨_, _, rfl, rfl, rfl, rfl⟩

/-- For the two clauses of `CommandFrame` and of `RegistersChangeOnlyByTheirCommands`: a construction
that changes `BASE` and an advance that changes `OFS`, in beats without reset. -/
theorem witness_registers_change :
    ((currentBeat (running ⟨0x1010, 7⟩)).rst = false ∧
      ∃ t, step (running ⟨0x1010, 7⟩) = .next t ∧ t.base ≠ (running ⟨0x1010, 7⟩).base) ∧
    ((currentBeat (running ⟨0x6000, 16⟩)).rst = false ∧
      ∃ t, step (running ⟨0x6000, 16⟩) = .next t ∧ t.ofs ≠ (running ⟨0x6000, 16⟩).ofs) :=
  ⟨⟨rfl, _, rfl, by decide⟩, ⟨rfl, _, rfl, by decide⟩⟩

/-- For `StepKeepsSound` and `AcceptedCommandResponds`. -/
theorem witness_sound_and_running :
    sound (running ⟨0x5000, 0⟩) = true ∧ (∃ t, step (running ⟨0x5000, 0⟩) = .next t) ∧
      (running ⟨0x5000, 0⟩).inFlight = some ⟨0x5000, 0⟩ ∧
      noReset (running ⟨0x5000, 0⟩) = true := ⟨by decide, ⟨_, rfl⟩, rfl, by decide⟩

/-- For `CommandsServedInOrder`, `BeatsRealiseCalls` and `EveryCommandOrderIsARun`: a ready unit whose
host calls it. -/
theorem witness_ready :
    cmdReady { engine 9 with inputs := callBeats ⟨0x5000, 0⟩ } = true ∧
      noReset { engine 9 with inputs := callBeats ⟨0x5000, 0⟩ } = true := by decide

/-- For `ValidRecordsConstruction`. -/
theorem witness_calls_construct :
    State.reset.valid = false ∧
      ∃ t, callAll [⟨0x1010, 7⟩, ⟨0x5000, 0⟩] State.reset = .next t ∧ t.valid = true :=
  ⟨rfl, _, rfl, rfl⟩

/-- For `AdvanceSequencesAdd`: byte counts that are all multiples of 16, in two orders. -/
theorem witness_whole_blocks :
    (∀ n ∈ [(16 : BitVec 128), 32], n.toNat % 16 = 0) ∧
      List.Perm [(16 : BitVec 128), 32] [32, 16] := ⟨by simp, List.Perm.swap _ _ _⟩

/-- For the two clauses of `SeekEqualsAdvancing`, at the largest `k`. -/
theorem witness_absolute_seek :
    (∃ t r, exec (.seek .start 32) (engine 9) = .next t ∧ t.rsp = some r ∧ r.status = .ok) ∧
      (2 ^ 123 - 1 : Nat) < 2 ^ 123 ∧ (engine 9).valid = true ∧
      (engine 9).base = split 0x000102030405060708090a0b0c0d0e0f :=
  ⟨⟨_, _, rfl, rfl, rfl⟩, by decide, rfl, rfl⟩

/-- For `DutyMakesRoundingExact`: a stream of 16, 16 and 1 bytes keeps the duty; one with the short
call first does not. -/
theorem witness_duty :
    dutyKept false ([(16 : BitVec 128), 16, 1].map fun n =>
        (encode (.advance n), ⟨.ok, advanceCause n, 0⟩)) = true ∧
      dutyKept false ([(1 : BitVec 128), 16].map fun n =>
        (encode (.advance n), ⟨.ok, advanceCause n, 0⟩)) = false := by decide

/-- For `EndedRunHoldsState`. -/
theorem witness_ended_run :
    runEnded (engine 9) = true ∧ noReset (engine 9) = true ∧ ∃ t, step (engine 9) = .next t :=
  ⟨by decide, by decide, _, rfl⟩

end Sys2Proof.Tests
end

/-! ## The datapath over 128-bit integers -/

namespace Sys2Proof.Machine

open Sys2Proof

@[simp] theorem join_split (v : BitVec 128) : join (split v) = v := by
  apply BitVec.eq_of_toNat_eq
  have := v.isLt
  rw [join_toNat]
  simp only [split, BitVec.extractLsb'_toNat, Nat.shiftRight_eq_div_pow]
  omega

/-- The word-wise adder refines addition modulo `2^128` (R84): each word sum is its word and the carry
the next sum takes in, so the eight equations telescope. -/
@[simp] theorem join_add128w (a b : Counter) : join (add128w a b) = join a + join b := by
  apply BitVec.eq_of_toNat_eq
  have bound := (join (add128w a b)).isLt
  rw [BitVec.toNat_add]
  simp only [join_toNat, add128w] at bound ⊢
  have e7 : a.w7.toNat + b.w7.toNat + 0 =
      carryOf (wordSums a b).s7 * 65536 + (wordOf (wordSums a b).s7).toNat :=
    sum_eq_carry_and_word _
  have e6 : a.w6.toNat + b.w6.toNat + carryOf (wordSums a b).s7 =
      carryOf (wordSums a b).s6 * 65536 + (wordOf (wordSums a b).s6).toNat :=
    sum_eq_carry_and_word _
  have e5 : a.w5.toNat + b.w5.toNat + carryOf (wordSums a b).s6 =
      carryOf (wordSums a b).s5 * 65536 + (wordOf (wordSums a b).s5).toNat :=
    sum_eq_carry_and_word _
  have e4 : a.w4.toNat + b.w4.toNat + carryOf (wordSums a b).s5 =
      carryOf (wordSums a b).s4 * 65536 + (wordOf (wordSums a b).s4).toNat :=
    sum_eq_carry_and_word _
  have e3 : a.w3.toNat + b.w3.toNat + carryOf (wordSums a b).s4 =
      carryOf (wordSums a b).s3 * 65536 + (wordOf (wordSums a b).s3).toNat :=
    sum_eq_carry_and_word _
  have e2 : a.w2.toNat + b.w2.toNat + carryOf (wordSums a b).s3 =
      carryOf (wordSums a b).s2 * 65536 + (wordOf (wordSums a b).s2).toNat :=
    sum_eq_carry_and_word _
  have e1 : a.w1.toNat + b.w1.toNat + carryOf (wordSums a b).s2 =
      carryOf (wordSums a b).s1 * 65536 + (wordOf (wordSums a b).s1).toNat :=
    sum_eq_carry_and_word _
  have e0 : a.w0.toNat + b.w0.toNat + carryOf (wordSums a b).s1 =
      carryOf (wordSums a b).s0 * 65536 + (wordOf (wordSums a b).s0).toNat :=
    sum_eq_carry_and_word _
  omega

/-- The Current IV is the sum of the two counters modulo `2^128` (R113). -/
theorem currentIv_eq (s : State) : currentIv s = join s.base + join s.ofs := join_add128w _ _

/-- The block count of an `ADVANCE` is the byte count over 16, rounded up (R88). -/
theorem advanceBlocks_toNat (bytes : BitVec 128) :
    (advanceBlocks bytes).toNat = (bytes.toNat + 15) / 16 := by
  have := bytes.isLt
  have whole : ((bytes.extractLsb' 4 124).setWidth 128).toNat = bytes.toNat / 16 := by
    rw [BitVec.toNat_setWidth, BitVec.extractLsb'_toNat, Nat.shiftRight_eq_div_pow]
    omega
  have last : (if isPartial bytes then (1 : BitVec 128) else 0).toNat =
      if bytes.toNat % 16 = 0 then 0 else 1 := by
    by_cases h : bytes.toNat % 16 = 0 <;> simp [isPartial_eq, h]
  rw [advanceBlocks, BitVec.toNat_add, whole, last]
  split <;> omega

@[simp] theorem zeroCounter_word (i : Nat) : zeroCounter.word i = 0 := by
  unfold Counter.word
  split <;> rfl

end Sys2Proof.Machine

/-! ## The decoder on encoded instructions and on table words -/

namespace Sys2Proof

@[simp] theorem whenceOf_whenceBits (w : Whence) : whenceOf (whenceBits w) = w := by
  cases w <;> rfl

@[simp] theorem decode_encode (i : Instr) : decode (encode i) = .ok i := by
  cases i <;> simp [decode, encode, opcodeOf]

theorem decode_of_decodeTableWord {nbits w : Nat} {i : Instr}
    (h : decodeTableWord nbits w = some i) : decode (wordCommand nbits w) = .ok i := by
  unfold decodeTableWord at h
  split at h
  · rename_i hd
    cases h
    exact hd
  · cases h

end Sys2Proof

/-! ## What each command does, one equation per case of its rule -/

namespace Sys2Proof.Machine

open Sys2Proof

theorem exec_loadiv_16 (iv : BitVec 128) (s : State) :
    exec (.loadiv 16 iv) s = .next (respond .ok .none 0 (construct iv s)) := rfl

theorem exec_loadiv_of_ne {len : BitVec 8} (h : len ≠ 16) (iv : BitVec 128) (s : State) :
    exec (.loadiv len iv) s = .next (raise .invalidInput .badLen s) := by
  exact if_pos (bne_iff_ne.mpr h)

theorem exec_getiv_of_valid {s : State} (h : s.valid = true) :
    exec .getiv s = .next (respond .ok .none (currentIv s) s) := by
  simp [exec, execGetiv, noEngine, h]

theorem exec_getiv_of_noEngine {s : State} (h : s.valid = false) :
    exec .getiv s = .next (raise .noEngine .none s) := by
  simp [exec, execGetiv, noEngine, h]

theorem exec_advance_of_valid {s : State} (h : s.valid = true) (bytes : BitVec 128) :
    exec (.advance bytes) s =
      .next (respond .ok (advanceCause bytes) 0
        (writeOfs (add128w s.ofs (split (advanceBlocks bytes))) s)) := by
  simp [exec, execAdvance, noEngine, h]

theorem exec_advance_of_noEngine {s : State} (h : s.valid = false) (bytes : BitVec 128) :
    exec (.advance bytes) s = .next (raise .noEngine .none s) := by
  simp [exec, execAdvance, noEngine, h]

theorem exec_seek_of_accepted {s : State} {whence : Whence} {offset : BitVec 128}
    (h : s.valid = true) (hr : seekRefusal whence offset = none) :
    exec (.seek whence offset) s =
      .next (respond .ok .none 0 (writeOfs (seekTarget whence offset s.ofs) s)) := by
  simp [exec, execSeek, noEngine, h, hr]

theorem exec_seek_of_refused {s : State} {whence : Whence} {offset : BitVec 128} {cause : Cause}
    (h : s.valid = true) (hr : seekRefusal whence offset = some cause) :
    exec (.seek whence offset) s = .next (raise .unsupported cause s) := by
  simp [exec, execSeek, noEngine, h, hr]

theorem exec_seek_of_noEngine {s : State} (h : s.valid = false) (whence : Whence)
    (offset : BitVec 128) : exec (.seek whence offset) s = .next (raise .noEngine .none s) := by
  simp [exec, execSeek, noEngine, h]

/-- The rules of the commands as a relation: `Executes s i t` when a rule takes `s` to `t` by the
instruction `i`. Proofs about every command split on these rules and not on `exec`. -/
inductive Executes (s : State) : Instr → State → Prop
  /-- R100 -/
  | constructs (iv : BitVec 128) :
      Executes s (.loadiv 16 iv) (respond .ok .none 0 (construct iv s))
  /-- R101 -/
  | refusesLength {len : BitVec 8} (iv : BitVec 128) (bad : len ≠ 16) :
      Executes s (.loadiv len iv) (raise .invalidInput .badLen s)
  /-- R110 -/
  | tellsMode : Executes s .getmode (respond .ok .none (modeTag.setWidth 128) s)
  /-- R111 -/
  | tellsPadding : Executes s .reqpad (respond .ok .none (paddingAnswer.setWidth 128) s)
  /-- R112 -/
  | tellsSeeking : Executes s .supseek (respond .ok .none (seekingAnswer.setWidth 128) s)
  /-- R113 -/
  | tellsIv (engine : s.valid = true) :
      Executes s .getiv (respond .ok .none (currentIv s) s)
  /-- R113, R166 -/
  | getivLacksEngine (lacks : s.valid = false) :
      Executes s .getiv (raise .noEngine .none s)
  /-- R130, R131 -/
  | advances (bytes : BitVec 128) (engine : s.valid = true) :
      Executes s (.advance bytes)
        (respond .ok (advanceCause bytes) 0
          (writeOfs (add128w s.ofs (split (advanceBlocks bytes))) s))
  /-- R130, R166 -/
  | advanceLacksEngine (bytes : BitVec 128) (lacks : s.valid = false) :
      Executes s (.advance bytes) (raise .noEngine .none s)
  /-- R135 -/
  | seeks {whence : Whence} {offset : BitVec 128} (engine : s.valid = true)
      (accepted : seekRefusal whence offset = none) :
      Executes s (.seek whence offset)
        (respond .ok .none 0 (writeOfs (seekTarget whence offset s.ofs) s))
  /-- R136 -/
  | refusesSeek {whence : Whence} {offset : BitVec 128} {cause : Cause} (engine : s.valid = true)
      (refused : seekRefusal whence offset = some cause) :
      Executes s (.seek whence offset) (raise .unsupported cause s)
  /-- R135, R166 -/
  | seekLacksEngine (whence : Whence) (offset : BitVec 128) (lacks : s.valid = false) :
      Executes s (.seek whence offset) (raise .noEngine .none s)

/-- The rules cover every instruction in every state. -/
theorem exec_executes (i : Instr) (s : State) : ∃ t, exec i s = .next t ∧ Executes s i t := by
  cases i with
  | loadiv len iv =>
    by_cases h : len = 16
    · subst h; exact ⟨_, exec_loadiv_16 iv s, .constructs iv⟩
    · exact ⟨_, exec_loadiv_of_ne h iv s, .refusesLength iv h⟩
  | getmode => exact ⟨_, rfl, .tellsMode⟩
  | reqpad => exact ⟨_, rfl, .tellsPadding⟩
  | supseek => exact ⟨_, rfl, .tellsSeeking⟩
  | getiv =>
    cases h : s.valid with
    | true => exact ⟨_, exec_getiv_of_valid h, .tellsIv h⟩
    | false => exact ⟨_, exec_getiv_of_noEngine h, .getivLacksEngine h⟩
  | advance bytes =>
    cases h : s.valid with
    | true => exact ⟨_, exec_advance_of_valid h bytes, .advances bytes h⟩
    | false => exact ⟨_, exec_advance_of_noEngine h bytes, .advanceLacksEngine bytes h⟩
  | seek whence offset =>
    cases h : s.valid with
    | true =>
      cases hr : seekRefusal whence offset with
      | none => exact ⟨_, exec_seek_of_accepted h hr, .seeks h hr⟩
      | some cause => exact ⟨_, exec_seek_of_refused h hr, .refusesSeek h hr⟩
    | false => exact ⟨_, exec_seek_of_noEngine h whence offset, .seekLacksEngine whence offset h⟩

/-- Whatever `exec` does is done by one of the rules. -/
theorem executes_of_exec {i : Instr} {s t : State} (h : exec i s = .next t) : Executes s i t := by
  obtain ⟨u, hu, he⟩ := exec_executes i s
  rw [h] at hu
  cases hu
  exact he

theorem runCommand_of_decode {c : Command} {i : Instr} (h : decode c = .ok i) (s : State) :
    runCommand c s = exec i s := by
  simp [runCommand, h]

theorem runCommand_of_error {c : Command} {e : DecodeError} (h : decode c = .error e) (s : State) :
    runCommand c s = .next (raise .illegalCmd .none s) := by
  simp [runCommand, h]

@[simp] theorem runCommand_encode (i : Instr) (s : State) : runCommand (encode i) s = exec i s :=
  runCommand_of_decode (decode_encode i) s

/-- A command word that runs is an instruction run by its rule, or illegal (R164, R165). -/
theorem runCommand_cases {c : Command} {s t : State} (h : runCommand c s = .next t) :
    (∃ i, decode c = .ok i ∧ Executes s i t) ∨
      (∃ e, decode c = .error e ∧ t = raise .illegalCmd .none s) := by
  cases hd : decode c with
  | ok i =>
    rw [runCommand_of_decode hd] at h
    exact .inl ⟨i, rfl, executes_of_exec h⟩
  | error e =>
    rw [runCommand_of_error hd] at h
    cases h
    exact .inr ⟨e, rfl, rfl⟩

theorem runCommand_next (c : Command) (s : State) : ∃ t, runCommand c s = .next t := by
  obtain ⟨t, -, h, -⟩ := runCommand_answers c s
  exact ⟨t, h⟩

/-- `exec_answers` for a given next state. -/
theorem exec_channels {i : Instr} {s t : State} (h : exec i s = .next t) :
    t.inFlight = none ∧ (∃ r, t.rsp = some r) ∧ t.inputs = s.inputs ∧ t.taken = s.taken := by
  obtain ⟨u, r, hu, inFlight, rsp, outside⟩ := exec_answers i s
  rw [h] at hu
  cases hu
  exact ⟨inFlight, ⟨r, rsp⟩, outside⟩

/-- `runCommand_answers` for a given next state. -/
theorem runCommand_channels {c : Command} {s t : State} (h : runCommand c s = .next t) :
    t.inFlight = none ∧ (∃ r, t.rsp = some r) ∧ t.inputs = s.inputs ∧ t.taken = s.taken := by
  obtain ⟨u, r, hu, inFlight, rsp, outside⟩ := runCommand_answers c s
  rw [h] at hu
  cases hu
  exact ⟨inFlight, ⟨r, rsp⟩, outside⟩

/-! ### What the rules leave unchanged -/

section Frames

variable {i : Instr} {s t : State}

/-- Only a construction writes `BASE` and `VALID` (R25). -/
theorem Executes.base_valid_eq (h : Executes s i t) (notConstruct : ∀ iv, i ≠ .loadiv 16 iv) :
    t.base = s.base ∧ t.valid = s.valid := by
  cases h with
  | constructs iv => exact absurd rfl (notConstruct iv)
  | _ => exact ⟨rfl, rfl⟩

/-- `OFS` is written only by a construction and, with an engine, by an `ADVANCE` or a `SEEK` from a
recognised origin, and each of them answers `OK` (R21). -/
theorem Executes.ofs_eq_or (h : Executes s i t) :
    t.ofs = s.ofs ∨ (∃ r, t.rsp = some r ∧ r.status = .ok) ∧
      ((∃ iv, i = .loadiv 16 iv) ∨
        s.valid = true ∧ ((∃ n, i = .advance n) ∨ (∃ off, i = .seek .start off) ∨
          ∃ off, i = .seek .current off)) := by
  cases h with
  | constructs iv => exact .inr ⟨⟨_, rfl, rfl⟩, .inl ⟨iv, rfl⟩⟩
  | advances n engine => exact .inr ⟨⟨_, rfl, rfl⟩, .inr ⟨engine, .inl ⟨n, rfl⟩⟩⟩
  | @seeks whence offset engine accepted =>
    cases whence with
    | start => exact .inr ⟨⟨_, rfl, rfl⟩, .inr ⟨engine, .inr (.inl ⟨offset, rfl⟩)⟩⟩
    | current => exact .inr ⟨⟨_, rfl, rfl⟩, .inr ⟨engine, .inr (.inr ⟨offset, rfl⟩)⟩⟩
    | unrecognised2 => exact .inl rfl
    | unrecognised3 => exact .inl rfl
  | _ => exact .inl rfl

/-- `VALID` after a command: an engine stays, and only a construction makes one (R24). -/
theorem Executes.valid_iff (h : Executes s i t) :
    t.valid = true ↔ s.valid = true ∨ ∃ iv, i = .loadiv 16 iv := by
  by_cases hi : ∃ iv, i = .loadiv 16 iv
  · obtain ⟨iv, rfl⟩ := hi
    cases h with
    | constructs => simp
    | refusesLength _ bad => exact absurd rfl bad
  · rw [(h.base_valid_eq (not_exists.mp hi)).2]
    simp only [hi, or_false]

end Frames

/-- `VALID` after a command word (R24). -/
theorem runCommand_valid_iff {c : Command} {s t : State} (h : runCommand c s = .next t) :
    t.valid = true ↔ s.valid = true ∨ ∃ iv, decode c = .ok (.loadiv 16 iv) := by
  rcases runCommand_cases h with ⟨i, hd, he⟩ | ⟨e, hd, rfl⟩
  · simp [he.valid_iff, hd]
  · simp [hd]

/-! ## One beat, one equation per case of `step_cases` -/

section Steps

variable {s : State}

theorem step_of_rst (hr : (currentBeat s).rst = true) :
    step s = .next (assertReset (nextBeat s)) := by
  simp [step, serveBeat, hr]

theorem step_of_busy {c : Command} (hr : (currentBeat s).rst = false) (hf : s.inFlight = some c)
    (hb : (currentBeat s).busy = true) : step s = .next (nextBeat s) := by
  simp [step, serveBeat, hr, hf, hb]

theorem step_of_inFlight {c : Command} (hr : (currentBeat s).rst = false)
    (hf : s.inFlight = some c) (hb : (currentBeat s).busy = false) :
    step s = runCommand c (nextBeat s) := by
  simp [step, serveBeat, hr, hf, hb]

theorem step_of_taken {r : Response} (hr : (currentBeat s).rst = false) (hf : s.inFlight = none)
    (hp : s.rsp = some r) (hd : (currentBeat s).rspReady = true) :
    step s = .next (deliverResponse r (nextBeat s)) := by
  simp [step, serveBeat, transfer, hr, hf, hp, hd]

theorem step_of_untaken {r : Response} (hr : (currentBeat s).rst = false)
    (hf : s.inFlight = none) (hp : s.rsp = some r) (hd : (currentBeat s).rspReady = false) :
    step s = .next (nextBeat s) := by
  simp [step, serveBeat, transfer, hr, hf, hp, hd]

theorem step_of_offer {c : Command} (hr : (currentBeat s).rst = false) (hf : s.inFlight = none)
    (hp : s.rsp = none) (ho : (currentBeat s).offer = some c) :
    step s = .next (acceptCommand c (nextBeat s)) := by
  simp [step, serveBeat, transfer, hr, hf, hp, ho]

theorem step_of_noOffer (hr : (currentBeat s).rst = false) (hf : s.inFlight = none)
    (hp : s.rsp = none) (ho : (currentBeat s).offer = none) : step s = .next (nextBeat s) := by
  simp [step, serveBeat, transfer, hr, hf, hp, ho]

end Steps

/-- Every beat in every state has a next state. -/
theorem step_answers (s : State) : ∃ t, step s = .next t := by
  unfold step serveBeat
  split
  · exact ⟨_, rfl⟩
  · split
    · split
      · exact ⟨_, rfl⟩
      · exact runCommand_next _ _
    · exact ⟨_, rfl⟩

/-- Without reset a step leaves the registers as they were, unless it runs the command in flight. -/
theorem step_keeps_registers_or_runs {s t : State} (h : step s = .next t)
    (hr : (currentBeat s).rst = false) :
    (t.base = s.base ∧ t.ofs = s.ofs ∧ t.valid = s.valid) ∨
      ∃ c, s.inFlight = some c ∧ runCommand c (nextBeat s) = .next t := by
  rcases step_cases h with ⟨hr', -⟩ | ⟨-, c, hf, ⟨-, rfl⟩ | ⟨-, hc⟩⟩ |
    ⟨-, -, r, -, ⟨-, rfl⟩ | ⟨-, rfl⟩⟩ | ⟨-, -, -, ⟨c, -, rfl⟩ | ⟨-, rfl⟩⟩
  · simp [hr] at hr'
  · exact .inl ⟨rfl, rfl, rfl⟩
  · exact .inr ⟨c, hf, hc⟩
  · exact .inl ⟨rfl, rfl, rfl⟩
  · exact .inl ⟨rfl, rfl, rfl⟩
  · exact .inl ⟨rfl, rfl, rfl⟩
  · exact .inl ⟨rfl, rfl, rfl⟩

/-- A step takes no command while another is in flight or a response is pending (R33). -/
theorem step_accepts_nothing_unless_ready {s t : State} (h : step s = .next t)
    (occupied : s.inFlight.isSome = true ∨ s.rsp.isSome = true) :
    t.inFlight = s.inFlight ∨ t.inFlight = none := by
  rcases step_cases h with ⟨-, rfl⟩ | ⟨-, c, -, ⟨-, rfl⟩ | ⟨-, hc⟩⟩ |
    ⟨-, -, r, -, ⟨-, rfl⟩ | ⟨-, rfl⟩⟩ | ⟨-, hf, hp, -⟩
  · exact .inr rfl
  · exact .inl rfl
  · exact .inr (runCommand_channels hc).1
  · exact .inl rfl
  · exact .inl rfl
  · simp [hf, hp] at occupied

end Sys2Proof.Machine

/-! ## The invariant of the machine -/

namespace Sys2Proof.Safety

open Sys2Proof
open Sys2Proof.Machine

theorem sound_iff {s : State} :
    sound s = true ↔ (s.inFlight = none ∨ s.rsp = none) ∧
      (∀ r, s.rsp = some r → legalResponse r = true) ∧
      ∀ r ∈ s.taken, legalResponse r = true := by
  simp [sound, and_assoc, Option.all_eq_true]

/-- The invariant does not read the beats to come. -/
@[simp] theorem sound_nextBeat (s : State) : sound (nextBeat s) = sound s := rfl

/-- The response of every rule is one of the legal ones (R62, R170). -/
theorem executes_legalResponse {i : Instr} {s t : State} (h : Executes s i t) :
    ∃ r, t.rsp = some r ∧ legalResponse r = true := by
  cases h with
  | advances bytes _ =>
    refine ⟨_, rfl, ?_⟩
    unfold advanceCause
    split <;> rfl
  | refusesSeek _ refused =>
    refine ⟨_, rfl, ?_⟩
    rcases seekRefusal_causes refused with rfl | rfl | rfl | rfl <;> rfl
  | _ => exact ⟨_, rfl, rfl⟩

theorem runCommand_legalResponse {c : Command} {s t : State} (h : runCommand c s = .next t) :
    ∃ r, t.rsp = some r ∧ legalResponse r = true := by
  rcases runCommand_cases h with ⟨i, -, he⟩ | ⟨e, -, rfl⟩
  · exact executes_legalResponse he
  · exact ⟨_, rfl, rfl⟩

theorem sound_assertReset {s : State} (h : sound s = true) : sound (assertReset s) = true := by
  obtain ⟨-, -, taken⟩ := sound_iff.mp h
  exact sound_iff.mpr ⟨.inl rfl, nofun, taken⟩

theorem sound_runCommand {c : Command} {s t : State} (h : sound s = true)
    (hc : runCommand c s = .next t) : sound t = true := by
  obtain ⟨-, -, taken⟩ := sound_iff.mp h
  obtain ⟨inFlight, -, -, sameTaken⟩ := runCommand_channels hc
  obtain ⟨r, rsp, legal⟩ := runCommand_legalResponse hc
  refine sound_iff.mpr ⟨.inl inFlight, fun q hq => ?_, sameTaken ▸ taken⟩
  rw [rsp] at hq
  cases hq
  exact legal

theorem sound_deliverResponse {r : Response} {s : State} (h : sound s = true)
    (pending : s.rsp = some r) : sound (deliverResponse r s) = true := by
  obtain ⟨-, legal, taken⟩ := sound_iff.mp h
  refine sound_iff.mpr ⟨.inr rfl, nofun, fun q hq => ?_⟩
  rcases List.mem_append.mp hq with hq | hq
  · exact taken q hq
  · exact legal q (by rw [pending, List.mem_singleton.mp hq])

theorem sound_acceptCommand {c : Command} {s : State} (h : sound s = true)
    (idle : s.rsp = none) : sound (acceptCommand c s) = true := by
  obtain ⟨-, legal, taken⟩ := sound_iff.mp h
  exact sound_iff.mpr ⟨.inr idle, legal, taken⟩

end Sys2Proof.Safety

namespace Sys2Proof.Proofs

open Sys2Proof
open Sys2Proof.Machine
open Sys2Proof.Safety

/-- Settles O42: each of the things a step can do keeps the invariant. -/
theorem stepKeepsSound : Obligations.StepKeepsSound := by
  intro s t h hstep
  have hn := (sound_nextBeat s).trans h
  rcases step_cases hstep with ⟨-, rfl⟩ | ⟨-, c, -, ⟨-, rfl⟩ | ⟨-, hc⟩⟩ |
    ⟨-, -, r, hp, ⟨-, rfl⟩ | ⟨-, rfl⟩⟩ | ⟨-, -, hp, ⟨c, -, rfl⟩ | ⟨-, rfl⟩⟩
  · exact sound_assertReset hn
  · exact hn
  · exact sound_runCommand hn hc
  · exact sound_deliverResponse hn hp
  · exact hn
  · exact sound_acceptCommand hn hp
  · exact hn

/-- Settles O43: there is no command and no response to speak of. -/
theorem resetIsSound : Obligations.ResetIsSound :=
  sound_iff.mpr ⟨.inl rfl, nofun, nofun⟩

end Sys2Proof.Proofs

/-! ## Reset, and the transfers of a beat -/

namespace Sys2Proof.Proofs

open Sys2Proof
open Sys2Proof.Machine
open Sys2Proof.Safety

/-- Settles O1, word by word (R35). -/
theorem resetStateValues : Obligations.ResetStateValues :=
  ⟨rfl, zeroCounter_word, zeroCounter_word, rfl, rfl⟩

/-- Settles O7: the placed command is in flight and the beat placed before the others is idle, so
the step runs it. -/
theorem fetchedWordRunsNext : Obligations.FetchedWordRunsNext := by
  intro s nbits w i h
  have hs : step (s.withFetchWord nbits w) =
      runCommand (wordCommand nbits w) (nextBeat (s.withFetchWord nbits w)) :=
    step_of_inFlight rfl rfl rfl
  rw [hs, runCommand_of_decode (decode_of_decodeTableWord h)]
  rfl

/-- Settles O8: the equations of the transfers, and that nothing else accepts a command. -/
theorem channelTransfers : Obligations.ChannelTransfers :=
  ⟨fun _ _ hr hf hp ho => step_of_offer hr hf hp ho,
    fun _ _ hr hf hp hd => step_of_taken hr hf hp hd,
    fun _ _ hr hf hp hd => step_of_untaken hr hf hp hd,
    fun _ _ => step_accepts_nothing_unless_ready⟩

end Sys2Proof.Proofs

/-! ## Frames -/

namespace Sys2Proof.Proofs

open Sys2Proof
open Sys2Proof.Machine
open Sys2Proof.Safety

/-- Settles O37, from what the rules leave unchanged. -/
theorem commandFrame : Obligations.CommandFrame := by
  intro i s t h
  have he := executes_of_exec h
  obtain ⟨inFlight, ⟨r, rsp⟩, inputs, taken⟩ := exec_channels h
  refine ⟨inputs, taken, inFlight, by rw [rsp]; rfl, he.base_valid_eq, fun notConstruct other => ?_⟩
  rcases he.ofs_eq_or with same | ⟨-, ⟨iv, hi⟩ | ⟨engine, moves⟩⟩
  · exact same
  · exact absurd hi (notConstruct iv)
  · rcases other with lacks | ⟨notAdvance, notSeek⟩
    · simp [lacks] at engine
    · rcases moves with ⟨n, hi⟩ | ⟨off, hi⟩ | ⟨off, hi⟩
      · exact absurd hi (notAdvance n)
      · exact absurd hi (notSeek _ off)
      · exact absurd hi (notSeek _ off)

/-- Settles O38: only the run of a command writes a register, and its rule says which. -/
theorem registersChangeOnlyByTheirCommands : Obligations.RegistersChangeOnlyByTheirCommands := by
  intro s t h hr
  rcases step_keeps_registers_or_runs h hr with ⟨base, ofs, valid⟩ | ⟨c, hf, hc⟩
  · simp [base, ofs, valid]
  rcases runCommand_cases hc with ⟨i, hd, he⟩ | ⟨e, -, rfl⟩
  · constructor
    · intro changed
      by_contra notRun
      have notConstruct : ∀ iv, i ≠ .loadiv 16 iv := by
        rintro iv rfl
        exact notRun ⟨c, iv, hf, hd⟩
      obtain ⟨base, valid⟩ := he.base_valid_eq notConstruct
      simp [base, valid] at changed
    · intro changed
      rcases he.ofs_eq_or with same | ⟨⟨r, rsp, ok⟩, mover⟩
      · exact absurd same changed
      · refine ⟨c, r, hf, rsp, ok, ?_⟩
        rcases mover with ⟨iv, rfl⟩ | ⟨-, ⟨n, rfl⟩ | ⟨off, rfl⟩ | ⟨off, rfl⟩⟩
        · exact .inl ⟨iv, hd⟩
        · exact .inr (.inl ⟨n, hd⟩)
        · exact .inr (.inr (.inl ⟨off, hd⟩))
        · exact .inr (.inr (.inr ⟨off, hd⟩))
  · simp

end Sys2Proof.Proofs

/-! ## Calls, and the beats that realise them -/

namespace Sys2Proof.Safety

open Sys2Proof
open Sys2Proof.Machine

theorem runBeats_succ {s t : State} (h : step s = .next t) (n : Nat) :
    runBeats (n + 1) s = runBeats n t := by
  simp [runBeats, h]

theorem callAll_cons {c : Command} {s t : State} (h : runCommand c s = .next t)
    (cs : List Command) : callAll (c :: cs) s = callAll cs (takePending t) := by
  simp [callAll, h]

theorem callAll_encode_cons {i : Instr} {s t : State} (h : exec i s = .next t)
    (cs : List Command) : callAll (encode i :: cs) s = callAll cs (takePending t) :=
  callAll_cons ((runCommand_encode i s).trans h) cs

theorem takePending_of_rsp {s : State} {r : Response} (h : s.rsp = some r) :
    takePending s = deliverResponse r s := by
  simp [takePending, h]

@[simp] theorem takePending_base (s : State) : (takePending s).base = s.base := by
  unfold takePending; split <;> rfl
@[simp] theorem takePending_ofs (s : State) : (takePending s).ofs = s.ofs := by
  unfold takePending; split <;> rfl
@[simp] theorem takePending_valid (s : State) : (takePending s).valid = s.valid := by
  unfold takePending; split <;> rfl
@[simp] theorem takePending_inputs (s : State) : (takePending s).inputs = s.inputs := by
  unfold takePending; split <;> rfl
@[simp] theorem takePending_inFlight (s : State) : (takePending s).inFlight = s.inFlight := by
  unfold takePending; split <;> rfl
@[simp] theorem takePending_rsp (s : State) : (takePending s).rsp = none := by
  cases h : s.rsp <;> simp [takePending, h]

/-- A call ends with the unit ready for the next one, and uses up no beat of the outside. -/
theorem takePending_ready {c : Command} {s t : State} (h : runCommand c s = .next t) :
    cmdReady (takePending t) = true ∧ (takePending t).inputs = s.inputs := by
  obtain ⟨inFlight, -, inputs, -⟩ := runCommand_channels h
  simp [cmdReady, inFlight, inputs]

/-- The three beats of a call do what the call does (R33, R48): the first accepts the command, the
second runs it, the third delivers its response. -/
theorem runBeats_call {c : Command} {s u : State} (ready : cmdReady s = true)
    (h : runCommand c s = .next u) (bs : List Beat) (n : Nat) :
    runBeats (n + 3) { s with inputs := callBeats c ++ bs } =
      runBeats n { takePending u with inputs := bs } := by
  obtain ⟨hf, hp⟩ : s.inFlight = none ∧ s.rsp = none := by simpa [cmdReady] using ready
  obtain ⟨inFlight, ⟨r, rsp⟩, -⟩ := runCommand_channels h
  have accepted : step { s with inputs := callBeats c ++ bs } =
      .next { s with inFlight := some c, inputs := (callBeats c ++ bs).tail } :=
    step_of_offer rfl hf hp rfl
  have ran : step { s with inFlight := some c, inputs := (callBeats c ++ bs).tail } =
      .next { u with inputs := (callBeats c ++ bs).tail.tail } := by
    rw [step_of_inFlight (c := c) rfl rfl rfl]
    exact runCommand_ignores_outside c s u (some c) _ h
  have delivered : step { u with inputs := (callBeats c ++ bs).tail.tail } =
      .next { takePending u with inputs := bs } := by
    rw [takePending_of_rsp rsp]
    exact step_of_taken rfl inFlight rsp rfl
  rw [runBeats_succ accepted, runBeats_succ ran, runBeats_succ delivered]

/-- Calls made one after the other. -/
theorem callAll_append {cs : List Command} {s t : State} (h : callAll cs s = .next t)
    (ds : List Command) : callAll (cs ++ ds) s = callAll ds t := by
  induction cs generalizing s with
  | nil => cases h; rfl
  | cons c cs ih =>
    obtain ⟨u, hu⟩ := runCommand_next c s
    rw [callAll_cons hu] at h
    rw [List.cons_append, callAll_cons hu]
    exact ih h

/-- `VALID` after any calls, from any state (R24). -/
theorem callAll_valid_iff {cs : List Command} {s t : State} (h : callAll cs s = .next t) :
    t.valid = true ↔ s.valid = true ∨ ∃ c ∈ cs, ∃ iv, decode c = .ok (.loadiv 16 iv) := by
  induction cs generalizing s with
  | nil => cases h; simp
  | cons c cs ih =>
    obtain ⟨u, hu⟩ := runCommand_next c s
    rw [callAll_cons hu] at h
    rw [ih h, takePending_valid, runCommand_valid_iff hu]
    simp [or_assoc]

end Sys2Proof.Safety

namespace Sys2Proof.Proofs

open Sys2Proof
open Sys2Proof.Machine
open Sys2Proof.Safety

/-- Settles O46, by induction on the commands, one call for three beats. -/
theorem beatsRealiseCalls : Obligations.BeatsRealiseCalls := by
  intro cs
  induction cs with
  | nil => intro s _; rfl
  | cons c cs ih =>
    intro s ready
    obtain ⟨u, hu⟩ := runCommand_next c { s with inputs := [] }
    obtain ⟨ready', inputs⟩ : cmdReady (takePending u) = true ∧ (takePending u).inputs = [] :=
      takePending_ready hu
    calc runBeats (3 * (c :: cs).length) { s with inputs := (c :: cs).flatMap callBeats }
        = runBeats (3 * cs.length) { takePending u with inputs := cs.flatMap callBeats } :=
          runBeats_call (s := { s with inputs := [] }) ready hu _ _
      _ = callAll cs { takePending u with inputs := [] } := ih _ ready'
      _ = callAll cs (takePending u) := by rw [← inputs]
      _ = callAll (c :: cs) { s with inputs := [] } := (callAll_cons hu cs).symm

/-- Settles O48: `VALID` can only come from the calls. -/
theorem validRecordsConstruction : Obligations.ValidRecordsConstruction := by
  intro cs s t lacks h
  simpa [lacks] using callAll_valid_iff h

end Sys2Proof.Proofs

/-! ## A stream of blocks -/

namespace Sys2Proof.Safety

open Sys2Proof
open Sys2Proof.Machine

@[simp] theorem blockSum_nil : blockSum [] = 0 := rfl

@[simp] theorem blockSum_cons (n : BitVec 128) (ns : List (BitVec 128)) :
    blockSum (n :: ns) = (n.toNat + 15) / 16 + blockSum ns := rfl

/-- The calls of one block leave the engine with its IV and move `OFS` on by the blocks of the
`ADVANCE` (R130, R194). -/
theorem callAll_blockCalls (n : BitVec 128) {s : State} (engine : s.valid = true) :
    ∃ t, callAll (blockCalls n) s = .next t ∧ t.valid = true ∧ t.base = s.base ∧
      join t.ofs = join s.ofs + BitVec.ofNat 128 ((n.toNat + 15) / 16) := by
  have told := callAll_encode_cons (exec_getiv_of_valid engine) [encode (.advance n)]
  have advanced := callAll_encode_cons (exec_advance_of_valid
    (s := takePending (respond .ok .none (currentIv s) s)) engine n) []
  refine ⟨_, told.trans advanced, engine, rfl, ?_⟩
  simp [← advanceBlocks_toNat]

/-- The calls of a stream of blocks (R132, R194). -/
theorem callAll_stream (ns : List (BitVec 128)) {s : State} (engine : s.valid = true) :
    ∃ t, callAll (ns.flatMap blockCalls) s = .next t ∧ t.valid = true ∧ t.base = s.base ∧
      join t.ofs = join s.ofs + BitVec.ofNat 128 (blockSum ns) := by
  induction ns generalizing s with
  | nil => exact ⟨s, rfl, engine, rfl, by simp⟩
  | cons n ns ih =>
    obtain ⟨u, hu, engineU, baseU, ofsU⟩ := callAll_blockCalls n engine
    obtain ⟨t, ht, engineT, baseT, ofsT⟩ := ih engineU
    refine ⟨t, ?_, engineT, baseT.trans baseU, ?_⟩
    · rw [List.flatMap_cons, callAll_append hu, ht]
    · rw [ofsT, ofsU, blockSum_cons, BitVec.ofNat_add, BitVec.add_assoc]

end Sys2Proof.Safety

namespace Sys2Proof.Proofs

open Sys2Proof
open Sys2Proof.Machine
open Sys2Proof.Safety

/-- Settles O51: the stream moves `OFS` from zero by its blocks, and the last `GETIV` reads it. -/
theorem streamHandsOutSuccessiveIvs : Obligations.StreamHandsOutSuccessiveIvs := by
  intro iv ns s
  have built := callAll_encode_cons (exec_loadiv_16 iv s) (ns.flatMap blockCalls ++ [encode .getiv])
  obtain ⟨u, streamed, engine, base, ofs⟩ :=
    callAll_stream ns (s := takePending (respond .ok .none 0 (construct iv s))) rfl
  have told := callAll_encode_cons (exec_getiv_of_valid engine) []
  replace base : u.base = split iv := base
  replace ofs : join u.ofs = BitVec.ofNat 128 (blockSum ns) := by simpa using ofs
  refine ⟨_, built.trans ((callAll_append streamed _).trans told), ?_, ?_⟩
  · simp [ofs]
  · simp [takePending_of_rsp, currentIv_eq, base, ofs]

end Sys2Proof.Proofs

/-! ## The reset values of the counters -/

namespace Sys2Proof.Proofs

open Sys2Proof
open Sys2Proof.Machine
open Sys2Proof.Safety

/-- The state with other counters in place of its own. -/
def withCounters (base ofs : Counter) (s : State) : State := { s with base := base, ofs := ofs }

/-- The relation two runs keep that differ in the reset values of the counters alone: the counters may
differ while there is no engine, and nothing else ever does (R35). -/
def AgreeUntilBuilt (s u : State) : Prop :=
  u = s ∨ s.valid = false ∧ ∃ base ofs, u = withCounters base ofs s

section Runs

variable {s t : State} (base ofs : Counter)

theorem AgreeUntilBuilt.unbuilt (lacks : s.valid = false) :
    AgreeUntilBuilt s (withCounters base ofs s) :=
  .inr ⟨lacks, base, ofs, rfl⟩

/-- With no engine, an instruction overwrites the counters or does not look at them. -/
theorem exec_withCounters {i : Instr} (lacks : s.valid = false) (h : exec i s = .next t) :
    ∃ u, exec i (withCounters base ofs s) = .next u ∧ AgreeUntilBuilt t u := by
  cases executes_of_exec h with
  | constructs iv => exact ⟨_, exec_loadiv_16 iv _, .inl rfl⟩
  | refusesLength iv bad => exact ⟨_, exec_loadiv_of_ne bad iv _, .unbuilt base ofs lacks⟩
  | tellsMode => exact ⟨_, rfl, .unbuilt base ofs lacks⟩
  | tellsPadding => exact ⟨_, rfl, .unbuilt base ofs lacks⟩
  | tellsSeeking => exact ⟨_, rfl, .unbuilt base ofs lacks⟩
  | getivLacksEngine => exact ⟨_, exec_getiv_of_noEngine lacks, .unbuilt base ofs lacks⟩
  | advanceLacksEngine n =>
    exact ⟨_, exec_advance_of_noEngine (s := withCounters base ofs s) lacks n,
      .unbuilt base ofs lacks⟩
  | seekLacksEngine whence offset =>
    exact ⟨_, exec_seek_of_noEngine (s := withCounters base ofs s) lacks whence offset,
      .unbuilt base ofs lacks⟩
  | tellsIv engine => simp [lacks] at engine
  | advances n engine => simp [lacks] at engine
  | seeks engine => simp [lacks] at engine
  | refusesSeek engine => simp [lacks] at engine

theorem runCommand_withCounters {c : Command} (lacks : s.valid = false)
    (h : runCommand c s = .next t) :
    ∃ u, runCommand c (withCounters base ofs s) = .next u ∧ AgreeUntilBuilt t u := by
  cases hd : decode c with
  | ok i =>
    rw [runCommand_of_decode hd] at h ⊢
    exact exec_withCounters base ofs lacks h
  | error e =>
    rw [runCommand_of_error hd] at h ⊢
    cases h
    exact ⟨_, rfl, .unbuilt base ofs lacks⟩

theorem step_withCounters (lacks : s.valid = false) (h : step s = .next t) :
    ∃ u, step (withCounters base ofs s) = .next u ∧ AgreeUntilBuilt t u := by
  rcases step_cases h with ⟨hr, rfl⟩ | ⟨hr, c, hf, ⟨hb, rfl⟩ | ⟨hb, hc⟩⟩ |
    ⟨hr, hf, r, hp, ⟨hd, rfl⟩ | ⟨hd, rfl⟩⟩ | ⟨hr, hf, hp, ⟨c, ho, rfl⟩ | ⟨ho, rfl⟩⟩
  · exact ⟨_, step_of_rst hr, .inl rfl⟩
  · exact ⟨_, step_of_busy hr hf hb, .unbuilt base ofs lacks⟩
  · rw [step_of_inFlight (s := withCounters base ofs s) hr hf hb]
    exact runCommand_withCounters (s := nextBeat s) base ofs lacks hc
  · exact ⟨_, step_of_taken hr hf hp hd, .unbuilt base ofs lacks⟩
  · exact ⟨_, step_of_untaken hr hf hp hd, .unbuilt base ofs lacks⟩
  · exact ⟨_, step_of_offer hr hf hp ho, .unbuilt base ofs lacks⟩
  · exact ⟨_, step_of_noOffer hr hf hp ho, .unbuilt base ofs lacks⟩

end Runs

/-- Every step keeps the relation. -/
theorem AgreeUntilBuilt.step_keeps {s u : State} (h : AgreeUntilBuilt s u) :
    ∃ t v, step s = .next t ∧ step u = .next v ∧ AgreeUntilBuilt t v := by
  obtain ⟨t, ht⟩ := step_answers s
  rcases h with rfl | ⟨lacks, base, ofs, rfl⟩
  · exact ⟨t, t, ht, ht, .inl rfl⟩
  · obtain ⟨v, hv, agree⟩ := step_withCounters base ofs lacks ht
    exact ⟨t, v, ht, hv, agree⟩

/-- So does every run. -/
theorem AgreeUntilBuilt.runBeats_keeps {s u : State} (h : AgreeUntilBuilt s u) (n : Nat) :
    ∃ t v, runBeats n s = .next t ∧ runBeats n u = .next v ∧ AgreeUntilBuilt t v := by
  induction n generalizing s u with
  | zero => exact ⟨s, u, rfl, rfl, h⟩
  | succ n ih =>
    obtain ⟨s', u', hs, hu, agree⟩ := h.step_keeps
    rw [runBeats_succ hs, runBeats_succ hu]
    exact ih agree

/-- What the relation says of an outcome: responses and `VALID` agree, and with an engine the whole
state does. -/
theorem AgreeUntilBuilt.outcome {t u : State} (h : AgreeUntilBuilt t u) :
    t.taken = u.taken ∧ t.rsp = u.rsp ∧ t.valid = u.valid ∧ (t.valid = true → t = u) := by
  rcases h with rfl | ⟨lacks, base, ofs, rfl⟩
  · exact ⟨rfl, rfl, rfl, fun _ => rfl⟩
  · exact ⟨rfl, rfl, rfl, fun engine => by simp [lacks] at engine⟩

/-- Settles O2, by simulation: the two runs from reset keep `AgreeUntilBuilt`. -/
theorem resetCountersAreInvisible : Obligations.ResetCountersAreInvisible := by
  refine ⟨resetStateValues, fun base ofs inputs n => ?_⟩
  have start : AgreeUntilBuilt { State.reset with inputs := inputs }
      { State.reset with inputs := inputs, base := base, ofs := ofs } :=
    .unbuilt base ofs rfl
  obtain ⟨t, u, ht, hu, agree⟩ := start.runBeats_keeps n
  exact ⟨t, u, ht, hu, agree.outcome⟩

end Sys2Proof.Proofs

/-! ## The bytes and words of a value -/

namespace Sys2Proof.Machine

open Sys2Proof

/-- The words of `split` (R80). -/
theorem split_word (v : BitVec 128) {i : Nat} (hi : i < 8) :
    (split v).word i = v.extractLsb' (112 - 16 * i) 16 := by
  interval_cases i <;> rfl

@[simp] theorem split_join (c : Counter) : split (join c) = c := by
  have value := congrArg BitVec.toNat (join_split (join c))
  obtain ⟨a0, a1, a2, a3, a4, a5, a6, a7⟩ := c
  generalize split (join _) = d at value ⊢
  obtain ⟨b0, b1, b2, b3, b4, b5, b6, b7⟩ := d
  simp only [join_toNat] at value
  simp only [Counter.mk.injEq, ← BitVec.toNat_inj]
  omega

/-- The digits of a number in base `b`, weighed by their places, give back its last `n` places. -/
theorem sum_digits_mod (v b n : Nat) :
    ∑ k ∈ Finset.range n, v / b ^ k % b * b ^ k = v % b ^ n := by
  induction n with
  | zero => simp [Nat.mod_one]
  | succ n ih => rw [Finset.sum_range_succ, ih, Nat.mod_pow_succ, Nat.mul_comm (b ^ n)]

/-- The bytes of a value are its digits in base 256, byte 0 the most significant (R40, R42). -/
theorem byteOf_toNat_digit (v : BitVec 128) {j : Nat} (hj : j ≤ 15) :
    (byteOf v j).toNat = v.toNat / 256 ^ (15 - j) % 256 := by
  have place : 120 - 8 * j = 8 * (15 - j) := by omega
  rw [byteOf_toNat, place, Nat.pow_mul]

theorem toNat_eq_sum_bytes (v : BitVec 128) :
    v.toNat = ∑ j ∈ Finset.range 16, (byteOf v j).toNat * 256 ^ (15 - j) := by
  calc v.toNat = v.toNat % 256 ^ 16 := (Nat.mod_eq_of_lt v.isLt).symm
    _ = ∑ k ∈ Finset.range 16, v.toNat / 256 ^ k % 256 * 256 ^ k := (sum_digits_mod _ _ _).symm
    _ = ∑ j ∈ Finset.range 16, v.toNat / 256 ^ (15 - j) % 256 * 256 ^ (15 - j) :=
      (Finset.sum_flip (n := 15) _).symm
    _ = ∑ j ∈ Finset.range 16, (byteOf v j).toNat * 256 ^ (15 - j) :=
      Finset.sum_congr rfl fun j hj => by
        rw [byteOf_toNat_digit v (Nat.le_of_lt_succ (Finset.mem_range.mp hj))]

/-- A word is its two bytes, the first the more significant (R40). -/
theorem word_toNat_eq_bytes (w : Word) :
    w.toNat = (w.extractLsb' 8 8).toNat * 256 + (w.extractLsb' 0 8).toNat := by
  have := w.isLt
  simp only [BitVec.extractLsb'_toNat, Nat.shiftRight_eq_div_pow]
  omega

/-- A field of a field of a value, as one field of the value. -/
theorem extractLsb'_extractLsb' {w : Nat} (v : BitVec w) (start len : Nat) {inner width : Nat}
    (inside : inner + width ≤ len) :
    (v.extractLsb' start len).extractLsb' inner width = v.extractLsb' (start + inner) width := by
  ext k hk
  have : inner + k < len := by omega
  simp [BitVec.getElem_extractLsb', this, Nat.add_assoc]

/-- Byte `2 * i` of a value is the high byte of its word `i` (R40). -/
theorem byteOf_even (v : BitVec 128) {i : Nat} (hi : i < 8) :
    byteOf v (2 * i) = ((split v).word i).extractLsb' 8 8 := by
  have place : 120 - 8 * (2 * i) = 112 - 16 * i + 8 := by omega
  rw [split_word v hi, extractLsb'_extractLsb' v _ _ (by decide), byteOf, place]

/-- Byte `2 * i + 1` of a value is the low byte of its word `i` (R40). -/
theorem byteOf_odd (v : BitVec 128) {i : Nat} (hi : i < 8) :
    byteOf v (2 * i + 1) = ((split v).word i).extractLsb' 0 8 := by
  have place : 120 - 8 * (2 * i + 1) = 112 - 16 * i + 0 := by omega
  rw [split_word v hi, extractLsb'_extractLsb' v _ _ (by decide), byteOf, place]

end Sys2Proof.Machine

namespace Sys2Proof.Proofs

open Sys2Proof
open Sys2Proof.Machine
open Sys2Proof.Safety

/-- Settles O18: the bytes are base-256 digits, and two of them make a word of `split`. -/
theorem bytesAreBigEndian : Obligations.BytesAreBigEndian := by
  refine ⟨toNat_eq_sum_bytes, fun iv s t i h hi => ?_, fun s engine => ?_⟩
  · rw [exec_loadiv_16] at h
    cases h
    rw [byteOf_even iv hi, byteOf_odd iv hi]
    exact word_toNat_eq_bytes _
  · refine ⟨_, _, exec_getiv_of_valid engine, rfl, fun i hi => ?_⟩
    rw [byteOf_even _ hi, byteOf_odd _ hi, currentIv, split_join]
    exact ⟨rfl, rfl⟩

/-- Settles O40: a reader's answer depends on the registers alone, and those it leaves as they were. -/
theorem readersAreIdempotent : Obligations.ReadersAreIdempotent := by
  rintro i s (rfl | rfl | rfl | rfl)
  · exact ⟨_, rfl, rfl, rfl, rfl, rfl⟩
  · exact ⟨_, rfl, rfl, rfl, rfl, rfl⟩
  · exact ⟨_, rfl, rfl, rfl, rfl, rfl⟩
  · cases engine : s.valid with
    | true => exact ⟨_, exec_getiv_of_valid engine, rfl, rfl, engine, exec_getiv_of_valid engine⟩
    | false =>
      exact ⟨_, exec_getiv_of_noEngine engine, rfl, rfl, engine, exec_getiv_of_noEngine engine⟩

/-- Settles O6, from the equations of a beat with a command in flight. -/
theorem stepRunsDecodedInstruction : Obligations.StepRunsDecodedInstruction := by
  refine ⟨fun s c i hf hr hb hd => ?_, fun s c e hf hr hb hd => ?_,
    fun s c hf hr hb => step_of_busy hr hf hb⟩
  · rw [step_of_inFlight hr hf hb, runCommand_of_decode hd]
    rfl
  · rw [step_of_inFlight hr hf hb, runCommand_of_error hd]
    rfl

end Sys2Proof.Proofs

/-! ## The commands a run accepts -/

namespace Sys2Proof.Safety

open Sys2Proof
open Sys2Proof.Machine

/-- The command the unit accepts in this beat, if any. -/
def acceptedNow (s : State) : List Command :=
  if cmdReady s && !(currentBeat s).rst then (currentBeat s).offer.toList else []

theorem acceptedIn_succ {s t : State} (h : step s = .next t) (n : Nat) :
    acceptedIn (n + 1) s = acceptedNow s ++ acceptedIn n t := by
  simp [acceptedIn, acceptedNow, h]

theorem acceptedNow_of_ready {s : State} (ready : cmdReady s = true)
    (hr : (currentBeat s).rst = false) : acceptedNow s = (currentBeat s).offer.toList := by
  simp [acceptedNow, ready, hr]

theorem acceptedNow_of_not_ready {s : State} (h : cmdReady s = false) : acceptedNow s = [] := by
  simp [acceptedNow, h]

theorem acceptedNow_of_noOffer {s : State} (h : (currentBeat s).offer = none) :
    acceptedNow s = [] := by
  simp [acceptedNow, h]

/-- The commands accepted in a run and in what follows it. -/
theorem acceptedIn_add {m : Nat} {s t : State} (h : runBeats m s = .next t) (n : Nat) :
    acceptedIn (m + n) s = acceptedIn m s ++ acceptedIn n t := by
  induction m generalizing s with
  | zero => cases h; rw [Nat.zero_add]; rfl
  | succ m ih =>
    obtain ⟨u, hu⟩ := step_answers s
    rw [runBeats_succ hu] at h
    rw [Nat.succ_add, acceptedIn_succ hu, acceptedIn_succ hu, ih h, List.append_assoc]

/-- The three beats of a call accept its command and, since they offer no other, nothing else. -/
theorem acceptedIn_callBeats (c : Command) {s : State} (ready : cmdReady s = true)
    (bs : List Beat) : acceptedIn 3 { s with inputs := callBeats c ++ bs } = [c] := by
  obtain ⟨t, ht⟩ := step_answers { s with inputs := callBeats c ++ bs }
  obtain ⟨u, hu⟩ := step_answers t
  obtain ⟨v, hv⟩ := step_answers u
  have accepts : acceptedNow { s with inputs := callBeats c ++ bs } = [c] :=
    acceptedNow_of_ready ready rfl
  have runs : acceptedNow t = [] := acceptedNow_of_noOffer (by
    rw [currentBeat, step_inputs ht]; rfl)
  have delivers : acceptedNow u = [] := acceptedNow_of_noOffer (by
    rw [currentBeat, step_inputs hu, step_inputs ht]; rfl)
  rw [acceptedIn_succ ht, acceptedIn_succ hu, acceptedIn_succ hv, accepts, runs, delivers]
  rfl

end Sys2Proof.Safety

namespace Sys2Proof.Proofs

open Sys2Proof
open Sys2Proof.Machine
open Sys2Proof.Safety

/-- Settles O47, by induction on the commands: the beats of one call accept its command and leave the
unit ready for the next. -/
theorem everyCommandOrderIsARun : Obligations.EveryCommandOrderIsARun := by
  intro cs
  induction cs with
  | nil => intro s _; rfl
  | cons c cs ih =>
    intro s ready
    obtain ⟨u, hu⟩ := runCommand_next c s
    have called : runBeats 3 { s with inputs := callBeats c ++ cs.flatMap callBeats } =
        .next { takePending u with inputs := cs.flatMap callBeats } :=
      runBeats_call ready hu _ 0
    have served := acceptedIn_add called (3 * cs.length)
    rw [acceptedIn_callBeats c ready, ih (takePending u) (takePending_ready hu).1] at served
    rw [List.length_cons, Nat.mul_succ, Nat.add_comm]
    exact served

end Sys2Proof.Proofs

/-! ## The table of R139, row by row, and the commands that follow it -/

namespace Sys2Proof.Machine

open Sys2Proof

/-- The origin a header names, by the number in `WH` (R64). -/
theorem whenceOf_cases (wh : BitVec 2) :
    (wh.toNat = 0 ∧ whenceOf wh = .start) ∨ (wh.toNat = 1 ∧ whenceOf wh = .current) ∨
      (2 ≤ wh.toNat ∧ (whenceOf wh = .unrecognised2 ∨ whenceOf wh = .unrecognised3)) := by
  revert wh
  decide

/-- The alignment check reads the remainder of the signed offset (R136). -/
theorem offset_low_bits_zero_iff (offset : BitVec 128) :
    offset.extractLsb' 0 4 = 0 ↔ offset.toInt % 16 = 0 := by
  rw [low_bits_zero_iff]
  rcases toInt_by_sign offset with ⟨-, value, -⟩ | ⟨-, value, -⟩ <;> omega

/-- The sign check reads the sign of the offset (R136). -/
theorem offset_msb_iff (offset : BitVec 128) : offset.msb = true ↔ offset.toInt < 0 := by
  rw [BitVec.msb_eq_toInt, decide_eq_true_eq]

section SeekChecks

variable {whence : Whence} {offset : BitVec 128}

theorem seekRefusal_of_misaligned (h : offset.toInt % 16 ≠ 0) :
    seekRefusal whence offset = some .align :=
  if_pos (bne_iff_ne.mpr ((offset_low_bits_zero_iff offset).not.mpr h))

theorem seekRefusal_of_unrecognised (h : offset.toInt % 16 = 0)
    (hw : whence = .unrecognised2 ∨ whence = .unrecognised3) :
    seekRefusal whence offset = some .whence := by
  rw [← offset_low_bits_zero_iff] at h
  rcases hw with rfl | rfl <;> simp [seekRefusal, h]

theorem seekRefusal_start (h : offset.toInt % 16 = 0) :
    seekRefusal .start offset = if offset.toInt < 0 then some .negAbs else none := by
  rw [← offset_low_bits_zero_iff] at h
  simp [seekRefusal, h, offset_msb_iff]

theorem seekRefusal_current (h : offset.toInt % 16 = 0) :
    seekRefusal .current offset = if offset.toInt < 0 then some .negRel else none := by
  rw [← offset_low_bits_zero_iff] at h
  simp [seekRefusal, h, offset_msb_iff]

/-- The block count of a non-negative offset is the offset over 16 (R89). -/
theorem seekBlocks_eq (h : 0 ≤ offset.toInt) :
    seekBlocks offset = BitVec.ofInt 128 (offset.toInt / 16) := by
  apply BitVec.eq_of_toNat_eq
  rw [seekBlocks_toNat, BitVec.toNat_ofInt]
  rcases toInt_by_sign offset with ⟨-, value, bound⟩ | ⟨-, value, bound⟩ <;> omega

end SeekChecks

end Sys2Proof.Machine

namespace Sys2Proof.Safety

open Sys2Proof
open Sys2Proof.Machine

/-! ### The rows of the table, by opcode -/

section Rows

variable {u : TableUnit} {c : Command}

theorem tableServe_reserved (h : opField c.hdr = 0 ∨ 8 ≤ (opField c.hdr).toNat) :
    tableServe u c = (u, ⟨.illegalCmd, .none, 0⟩) := by
  rw [← BitVec.toNat_inj, opField_toNat] at h
  exact if_pos h

theorem tableServe_loadiv (h : opField c.hdr = 1) :
    tableServe u c = if lenField c.hdr = 16 then (⟨true, c.arg, 0⟩, ⟨.ok, .none, 0⟩)
      else (u, ⟨.invalidInput, .badLen, 0⟩) := by
  simp [tableServe, ← opField_toNat, h, ← BitVec.toNat_inj, lenField_toNat]

theorem tableServe_getmode (h : opField c.hdr = 2) :
    tableServe u c = (u, ⟨.ok, .none, 1⟩) := by
  simp [tableServe, ← opField_toNat, h]

theorem tableServe_reqpad (h : opField c.hdr = 3) :
    tableServe u c = (u, ⟨.ok, .none, 0⟩) := by
  simp [tableServe, ← opField_toNat, h]

theorem tableServe_supseek (h : opField c.hdr = 4) :
    tableServe u c = (u, ⟨.ok, .none, 1⟩) := by
  simp [tableServe, ← opField_toNat, h]

theorem tableServe_of_noEngine (h : opField c.hdr = 5 ∨ opField c.hdr = 6 ∨ opField c.hdr = 7)
    (lacks : u.valid = false) : tableServe u c = (u, ⟨.noEngine, .none, 0⟩) := by
  rcases h with h | h | h <;> simp [tableServe, ← opField_toNat, h, lacks]

theorem tableServe_getiv (h : opField c.hdr = 5) (engine : u.valid = true) :
    tableServe u c = (u, ⟨.ok, .none, u.base + u.ofs⟩) := by
  simp [tableServe, ← opField_toNat, h, engine]

theorem tableServe_advance (h : opField c.hdr = 6) (engine : u.valid = true) :
    tableServe u c = ({ u with ofs := u.ofs + advanceBlocks c.arg },
      ⟨.ok, advanceCause c.arg, 0⟩) := by
  have blocks : advanceBlocks c.arg = BitVec.ofNat 128 ((c.arg.toNat + 15) / 16) := by
    rw [← advanceBlocks_toNat, BitVec.ofNat_toNat, BitVec.setWidth_eq]
  by_cases whole : c.arg.toNat % 16 = 0
  · have count : (c.arg.toNat + 15) / 16 = c.arg.toNat / 16 := by omega
    simp [tableServe, ← opField_toNat, h, engine, whole, blocks, count, advanceCause, isPartial_eq]
  · have count : (c.arg.toNat + 15) / 16 = c.arg.toNat / 16 + 1 := by omega
    simp [tableServe, ← opField_toNat, h, engine, whole, blocks, count, advanceCause, isPartial_eq]

theorem tableServe_seek (h : opField c.hdr = 7) (engine : u.valid = true) :
    tableServe u c = (seekRefusal (whenceOf (whField c.hdr)) c.arg).elim
      ({ u with ofs := join (seekTarget (whenceOf (whField c.hdr)) c.arg (split u.ofs)) },
        ⟨.ok, .none, 0⟩)
      fun cause => (u, ⟨.unsupported, cause, 0⟩) := by
  by_cases aligned : c.arg.toInt % 16 = 0
  · rcases whenceOf_cases (whField c.hdr) with ⟨wh, name⟩ | ⟨wh, name⟩ | ⟨wh, name⟩
    · rw [name, seekRefusal_start aligned]
      by_cases negative : c.arg.toInt < 0
      · simp [tableServe, ← opField_toNat, ← whField_toNat, h, engine, aligned, wh, negative]
      · simp [tableServe, ← opField_toNat, ← whField_toNat, h, engine, aligned, wh, negative,
          seekTarget, seekBlocks_eq (not_lt.mp negative)]
    · rw [name, seekRefusal_current aligned]
      by_cases negative : c.arg.toInt < 0
      · simp [tableServe, ← opField_toNat, ← whField_toNat, h, engine, aligned, wh, negative]
      · simp [tableServe, ← opField_toNat, ← whField_toNat, h, engine, aligned, wh, negative,
          seekTarget, seekBlocks_eq (not_lt.mp negative)]
    · rw [seekRefusal_of_unrecognised aligned name]
      simp [tableServe, ← opField_toNat, ← whField_toNat, h, engine, aligned, wh]
  · rw [seekRefusal_of_misaligned aligned]
    simp [tableServe, ← opField_toNat, h, engine, aligned]

end Rows

/-- Every instruction does what the row of its opcode says (R139). -/
theorem tableServe_of_runCommand {c : Command} {s t : State} (h : runCommand c s = .next t) :
    ∃ r, t.rsp = some r ∧ tableServe (tableView s) c = (tableView t, r) := by
  rcases decode_cases c with ⟨op, hd⟩ | ⟨op, hd⟩ | ⟨op, hd⟩ | ⟨op, hd⟩ | ⟨op, hd⟩ | ⟨op, hd⟩ |
    ⟨op, hd⟩ | ⟨op, hd⟩
  · rw [runCommand_of_decode hd] at h
    generalize len : lenField c.hdr = n at h
    cases executes_of_exec h with
    | constructs iv =>
      refine ⟨_, rfl, (tableServe_loadiv op).trans ?_⟩
      simp [tableView, len]
    | refusesLength iv bad => exact ⟨_, rfl, (tableServe_loadiv op).trans (if_neg (len ▸ bad))⟩
  · rw [runCommand_of_decode hd] at h
    cases h
    exact ⟨_, rfl, tableServe_getmode op⟩
  · rw [runCommand_of_decode hd] at h
    cases h
    exact ⟨_, rfl, tableServe_reqpad op⟩
  · rw [runCommand_of_decode hd] at h
    cases h
    exact ⟨_, rfl, tableServe_supseek op⟩
  · rw [runCommand_of_decode hd] at h
    cases executes_of_exec h with
    | tellsIv engine =>
      refine ⟨_, rfl, ?_⟩
      rw [currentIv_eq]
      exact tableServe_getiv op engine
    | getivLacksEngine lacks => exact ⟨_, rfl, tableServe_of_noEngine (.inl op) lacks⟩
  · rw [runCommand_of_decode hd] at h
    cases executes_of_exec h with
    | advances n engine =>
      refine ⟨_, rfl, (tableServe_advance op engine).trans ?_⟩
      simp [tableView]
    | advanceLacksEngine n lacks => exact ⟨_, rfl, tableServe_of_noEngine (.inr (.inl op)) lacks⟩
  · rw [runCommand_of_decode hd] at h
    cases executes_of_exec h with
    | seeks engine accepted =>
      refine ⟨_, rfl, (tableServe_seek op engine).trans ?_⟩
      simp [tableView, accepted]
    | refusesSeek engine refused =>
      refine ⟨_, rfl, (tableServe_seek op engine).trans ?_⟩
      rw [refused]
      rfl
    | seekLacksEngine _ _ lacks => exact ⟨_, rfl, tableServe_of_noEngine (.inr (.inr op)) lacks⟩
  · rw [runCommand_of_error hd] at h
    cases h
    exact ⟨_, rfl, tableServe_reserved op⟩

/-- Commands served one list after the other. -/
theorem tableServeAll_append (u : TableUnit) (cs ds : List Command) :
    tableServeAll u (cs ++ ds) =
      ((tableServeAll (tableServeAll u cs).1 ds).1,
        (tableServeAll u cs).2 ++ (tableServeAll (tableServeAll u cs).1 ds).2) := by
  induction cs generalizing u with
  | nil => rfl
  | cons c cs ih => simp [tableServeAll, ih]

/-! ### Runs without reset simulate the table -/

/-- At most one command or response is on the unit's hands (R33). -/
def atMostOne (s : State) : Prop := s.inFlight = none ∨ s.rsp = none

/-- A run from `s` to `t` that accepts the commands `cs` serves all it had and got, in order, but what
is still in flight: the registers are the table's and the responses, taken or pending, are the table's
(R32, R51). -/
def Serves (s : State) (cs : List Command) (t : State) : Prop :=
  ∃ finished, s.inFlight.toList ++ cs = finished ++ t.inFlight.toList ∧
    tableView t = (tableServeAll (tableView s) finished).1 ∧
    t.taken ++ t.rsp.toList =
      s.taken ++ s.rsp.toList ++ (tableServeAll (tableView s) finished).2

/-- Nothing served: what was accepted is in flight, and registers and responses are as they were. -/
theorem Serves.of_none {s t : State} {cs : List Command}
    (queue : s.inFlight.toList ++ cs = t.inFlight.toList) (view : tableView t = tableView s)
    (responses : t.taken ++ t.rsp.toList = s.taken ++ s.rsp.toList) : Serves s cs t :=
  ⟨[], queue, view, responses.trans (List.append_nil _).symm⟩

/-- The command in flight served. -/
theorem Serves.of_runCommand {s t : State} {c : Command} (hf : s.inFlight = some c)
    (hp : s.rsp = none) (hc : runCommand c s = .next t) : Serves s [] t := by
  obtain ⟨inFlight, -, -, taken⟩ := runCommand_channels hc
  obtain ⟨r, rsp, row⟩ := tableServe_of_runCommand hc
  exact ⟨[c], by simp [hf, inFlight], by simp [tableServeAll, row],
    by simp [tableServeAll, row, hp, rsp, taken]⟩

theorem Serves.trans {s t u : State} {cs ds : List Command} (first : Serves s cs t)
    (second : Serves t ds u) : Serves s (cs ++ ds) u := by
  obtain ⟨xs, queueT, viewT, responsesT⟩ := first
  obtain ⟨ys, queueU, viewU, responsesU⟩ := second
  refine ⟨xs ++ ys, ?_, ?_, ?_⟩
  · rw [← List.append_assoc, queueT, List.append_assoc, queueU, List.append_assoc]
  · rw [tableServeAll_append, viewU, viewT]
  · rw [tableServeAll_append, responsesU, viewT, responsesT, List.append_assoc]

/-- One beat without reset: the command in flight is served or waits, the pending response is taken or
waits, or the command offered is accepted. -/
theorem step_serves {s t : State} (one : atMostOne s) (hr : (currentBeat s).rst = false)
    (h : step s = .next t) : atMostOne t ∧ Serves s (acceptedNow s) t := by
  rcases step_cases h with ⟨hr', -⟩ | ⟨-, c, hf, ran⟩ | ⟨-, hf, r, hp, answered⟩ |
    ⟨-, hf, hp, offered⟩
  · simp [hr] at hr'
  · have hp : s.rsp = none := by simpa [atMostOne, hf] using one
    rw [acceptedNow_of_not_ready (by simp [cmdReady, hf])]
    rcases ran with ⟨-, rfl⟩ | ⟨-, hc⟩
    · exact ⟨one, .of_none (List.append_nil _) rfl rfl⟩
    · exact ⟨.inl (runCommand_channels hc).1, Serves.of_runCommand (s := nextBeat s) hf hp hc⟩
  · rw [acceptedNow_of_not_ready (by simp [cmdReady, hp])]
    rcases answered with ⟨-, rfl⟩ | ⟨-, rfl⟩
    · exact ⟨.inl hf, .of_none (List.append_nil _) rfl (by simp [hp])⟩
    · exact ⟨one, .of_none (List.append_nil _) rfl rfl⟩
  · rw [acceptedNow_of_ready (by simp [cmdReady, hf, hp]) hr]
    rcases offered with ⟨c, ho, rfl⟩ | ⟨ho, rfl⟩
    · exact ⟨.inr hp, .of_none (by simp [hf, ho]) rfl rfl⟩
    · exact ⟨one, .of_none (by simp [ho]) rfl rfl⟩

theorem currentBeat_rst_of_noReset {s : State} (h : noReset s = true) :
    (currentBeat s).rst = false := by
  cases hi : s.inputs with
  | nil => simp [currentBeat, hi, Beat.idle]
  | cons b bs =>
    obtain ⟨now, -⟩ : b.rst = false ∧ ∀ x ∈ bs, x.rst = false := by simpa [noReset, hi] using h
    simpa [currentBeat, hi] using now

theorem step_noReset {s t : State} (h : step s = .next t) (hn : noReset s = true) :
    noReset t = true := by
  rw [noReset, List.all_eq_true] at hn ⊢
  rw [step_inputs h]
  exact fun b hb => hn b (List.mem_of_mem_tail hb)

/-- Every run without reset serves the commands it accepts. -/
theorem runBeats_serves (n : Nat) {s : State} (one : atMostOne s) (hn : noReset s = true) :
    ∃ t, runBeats n s = .next t ∧ Serves s (acceptedIn n s) t := by
  induction n generalizing s with
  | zero => exact ⟨s, rfl, .of_none (List.append_nil _) rfl rfl⟩
  | succ n ih =>
    obtain ⟨u, hu⟩ := step_answers s
    obtain ⟨oneU, first⟩ := step_serves one (currentBeat_rst_of_noReset hn) hu
    obtain ⟨t, ht, rest⟩ := ih oneU (step_noReset hu hn)
    rw [runBeats_succ hu, acceptedIn_succ hu]
    exact ⟨t, ht, first.trans rest⟩

end Sys2Proof.Safety

namespace Sys2Proof.Proofs

open Sys2Proof
open Sys2Proof.Machine
open Sys2Proof.Safety

/-- Settles O45, by simulation: a ready unit has nothing in flight and nothing pending, so the commands
it serves are among those the run accepts. -/
theorem commandsServedInOrder : Obligations.CommandsServedInOrder := by
  intro n s ready hn
  obtain ⟨hf, hp⟩ : s.inFlight = none ∧ s.rsp = none := by simpa [cmdReady] using ready
  obtain ⟨t, ht, finished, queue, view, responses⟩ := runBeats_serves n (.inl hf) hn
  simp only [hf, hp, Option.toList_none, List.nil_append, List.append_nil] at queue responses
  exact ⟨t, finished, ht, queue, view, responses⟩

end Sys2Proof.Proofs

/-! ## The opcode map, row by row and back -/

namespace Sys2Proof

section OpcodeMap

variable {c d : Command}

theorem decode_of_loadiv (h : opField c.hdr = 0x1) :
    decode c = .ok (.loadiv (lenField c.hdr) c.arg) := by
  simp [decode, h]

theorem decode_of_getmode (h : opField c.hdr = 0x2) : decode c = .ok .getmode := by
  simp [decode, h]

theorem decode_of_reqpad (h : opField c.hdr = 0x3) : decode c = .ok .reqpad := by
  simp [decode, h]

theorem decode_of_supseek (h : opField c.hdr = 0x4) : decode c = .ok .supseek := by
  simp [decode, h]

theorem decode_of_getiv (h : opField c.hdr = 0x5) : decode c = .ok .getiv := by
  simp [decode, h]

theorem decode_of_advance (h : opField c.hdr = 0x6) : decode c = .ok (.advance c.arg) := by
  simp [decode, h]

theorem decode_of_seek (h : opField c.hdr = 0x7) :
    decode c = .ok (.seek (whenceOf (whField c.hdr)) c.arg) := by
  simp [decode, h]

/-- The map is read back from its answer: a command word has the opcode of what it decodes to. -/
theorem opField_of_decode {i : Instr} (h : decode c = .ok i) : opField c.hdr = opcodeOf i := by
  rcases decode_cases c with ⟨op, hd⟩ | ⟨op, hd⟩ | ⟨op, hd⟩ | ⟨op, hd⟩ | ⟨op, hd⟩ | ⟨op, hd⟩ |
    ⟨op, hd⟩ | ⟨-, hd⟩ <;> cases hd.symm.trans h
  all_goals exact op

/-- Only a reserved opcode does not decode (R68). -/
theorem reserved_of_decode_error {e : DecodeError} (h : decode c = .error e) :
    opField c.hdr = 0x0 ∨ 0x8 ≤ (opField c.hdr).toNat := by
  have row := decode_cases c
  simp only [h, reduceCtorEq, and_false, false_or] at row
  exact row.1

/-- The decoder reads the opcode and the fields that opcode uses, and no other bit (R66). -/
theorem decode_congr (op : opField c.hdr = opField d.hdr)
    (loadiv : opField c.hdr = 0x1 → lenField c.hdr = lenField d.hdr ∧ c.arg = d.arg)
    (advance : opField c.hdr = 0x6 → c.arg = d.arg)
    (seek : opField c.hdr = 0x7 → whField c.hdr = whField d.hdr ∧ c.arg = d.arg) :
    decode c = decode d := by
  rcases decode_cases c with ⟨h, hd⟩ | ⟨h, hd⟩ | ⟨h, hd⟩ | ⟨h, hd⟩ | ⟨h, hd⟩ | ⟨h, hd⟩ | ⟨h, hd⟩ |
    ⟨h, hd⟩
  · obtain ⟨len, iv⟩ := loadiv h
    rw [hd, decode_of_loadiv (op ▸ h), len, iv]
  · rw [hd, decode_of_getmode (op ▸ h)]
  · rw [hd, decode_of_reqpad (op ▸ h)]
  · rw [hd, decode_of_supseek (op ▸ h)]
  · rw [hd, decode_of_getiv (op ▸ h)]
  · rw [hd, decode_of_advance (op ▸ h), advance h]
  · obtain ⟨wh, offset⟩ := seek h
    rw [hd, decode_of_seek (op ▸ h), wh, offset]
  · rw [op] at h
    rw [hd, decode_reserved h, op]

end OpcodeMap

/-! ### A command word as its fields -/

@[simp] theorem whenceBits_whenceOf (wh : BitVec 2) : whenceBits (whenceOf wh) = wh := by
  revert wh
  decide

/-- A header written as the sum of its fields (R60, R70). -/
theorem ofNat_eq_header {n : Nat} {op : BitVec 4} {wh : BitVec 2} {len : BitVec 8}
    (h : n = op.toNat * 4096 + wh.toNat * 1024 + len.toNat) :
    BitVec.ofNat 16 n = header op wh len := by
  rw [h, ← header_toNat, BitVec.ofNat_toNat, BitVec.setWidth_eq]

/-- A header whose `RSV` is 0 is put together from its three other fields (R60). -/
theorem header_of_fields {hdr : BitVec 16} (rsv : rsvField hdr = 0) :
    header (opField hdr) (whField hdr) (lenField hdr) = hdr := by
  apply BitVec.eq_of_toNat_eq
  have unused : hdr.toNat / 256 % 4 = 0 := by simpa [rsvField_toNat] using congrArg BitVec.toNat rsv
  rw [header_toNat, opField_toNat, whField_toNat, lenField_toNat]
  omega

/-- A word whose `RSV` is 0, in the form in which the encoder writes words. -/
theorem command_of_fields {c : Command} (rsv : rsvField c.hdr = 0) :
    (⟨header (opField c.hdr) (whField c.hdr) (lenField c.hdr), c.arg⟩ : Command) = c := by
  rw [header_of_fields rsv]

end Sys2Proof

/-! ## The assembler on lines in range -/

namespace Sys2Proof.Machine

open Sys2Proof

theorem assemble_of_wellFormed {l : AsmLine} (h : l.wellFormed = true) :
    assemble l = some (lineCommand l) := if_pos h

/-- `LOADIV`, its length written or not (R70): the length fits in `LEN`, so it does not reach the
other fields of the header. -/
theorem assemble_loadiv {len : Option Nat} {iv : Nat} (hlen : len.getD 16 < 256)
    (hiv : iv < 2 ^ 128) :
    assemble (.loadiv len iv) =
      some (encode (.loadiv (BitVec.ofNat 8 (len.getD 16)) (BitVec.ofNat 128 iv))) := by
  have inRange : (AsmLine.loadiv len iv).wellFormed = true := by
    rw [AsmLine.wellFormed, Bool.and_eq_true, decide_eq_true_eq, decide_eq_true_eq]
    exact ⟨hlen, hiv⟩
  have sameHeader : BitVec.ofNat 16 (0x1000 + len.getD 16) =
      header 0x1 0 (BitVec.ofNat 8 (len.getD 16)) :=
    ofNat_eq_header (by simp [Nat.mod_eq_of_lt hlen])
  rw [assemble_of_wellFormed inRange, lineCommand, sameHeader]
  rfl

theorem assemble_advance {n : Nat} (hn : n < 2 ^ 128) :
    assemble (.advance n) = some (encode (.advance (BitVec.ofNat 128 n))) := by
  have inRange : (AsmLine.advance n).wellFormed = true := decide_eq_true hn
  have sameHeader : (0x6000 : BitVec 16) = header 0x6 0 0 := rfl
  rw [assemble_of_wellFormed inRange, lineCommand, sameHeader]
  rfl

/-- `SEEK` with an origin whose number is the value of `WH` that names it (R64, R70). -/
theorem assemble_seek {off : Int} {origin : LineWhence} (whence : Whence)
    (lower : -2 ^ 127 ≤ off) (upper : off < 2 ^ 127) (known : origin.wellFormed = true)
    (number : lineOrigin origin = (whenceBits whence).toNat) :
    assemble (.seek off origin) = some (encode (.seek whence (BitVec.ofInt 128 off))) := by
  have inRange : (AsmLine.seek off origin).wellFormed = true := by
    rw [AsmLine.wellFormed, Bool.and_eq_true, Bool.and_eq_true, decide_eq_true_eq,
      decide_eq_true_eq]
    exact ⟨⟨lower, upper⟩, known⟩
  have sameHeader : BitVec.ofNat 16 (0x7000 + lineOrigin origin * 0x400) =
      header 0x7 (whenceBits whence) 0 :=
    ofNat_eq_header (by simp [number])
  rw [assemble_of_wellFormed inRange, lineCommand, sameHeader]
  rfl

/-- A raw line is its own word, whatever the word is (R70). -/
theorem assemble_cmd (c : Command) : assemble (.cmd c.hdr.toNat c.arg.toNat) = some c := by
  have inRange : (AsmLine.cmd c.hdr.toNat c.arg.toNat).wellFormed = true := by
    rw [AsmLine.wellFormed, Bool.and_eq_true, decide_eq_true_eq, decide_eq_true_eq]
    exact ⟨c.hdr.isLt, c.arg.isLt⟩
  simp [assemble_of_wellFormed inRange, lineCommand]

end Sys2Proof.Machine

/-! ## Encoding -/

namespace Sys2Proof.Proofs

open Sys2Proof
open Sys2Proof.Machine
open Sys2Proof.Safety

/-- Settles O12: each field of a header is read back as it was written. -/
theorem decodeOfEncode : Obligations.DecodeOfEncode := decode_encode

/-- Settles O9: the map one way, `opField_of_decode` the other. -/
theorem opcodeAloneDecides : Obligations.OpcodeAloneDecides := by
  refine fun c => ⟨⟨fun h => ⟨_, _, decode_of_loadiv h⟩, ?_⟩,
    ⟨decode_of_getmode, opField_of_decode⟩, ⟨decode_of_reqpad, opField_of_decode⟩,
    ⟨decode_of_supseek, opField_of_decode⟩, ⟨decode_of_getiv, opField_of_decode⟩,
    ⟨fun h => ⟨_, decode_of_advance h⟩, ?_⟩, ⟨fun h => ⟨_, _, decode_of_seek h⟩, ?_⟩⟩
  · rintro ⟨len, iv, h⟩
    exact opField_of_decode h
  · rintro ⟨bytes, h⟩
    exact opField_of_decode h
  · rintro ⟨whence, offset, h⟩
    exact opField_of_decode h

/-- Settles O11: the two words decode alike, and a command runs by what it decodes to. -/
theorem unusedFieldsAreIgnored : Obligations.UnusedFieldsAreIgnored := by
  intro c d op loadiv advance seek
  have same := decode_congr op loadiv advance seek
  exact ⟨fun i => by rw [same], fun s => by rw [runCommand, runCommand, same]⟩

/-- Settles O13: the word is put together from its fields, and those the encoder writes as 0 are 0. -/
theorem encodeOfDecode : Obligations.EncodeOfDecode := by
  intro c i h rsv len wh arg
  rw [← command_of_fields rsv]
  rcases decode_cases c with ⟨op, hd⟩ | ⟨op, hd⟩ | ⟨op, hd⟩ | ⟨op, hd⟩ | ⟨op, hd⟩ | ⟨op, hd⟩ |
    ⟨op, hd⟩ | ⟨-, hd⟩ <;> cases hd.symm.trans h
  all_goals simp [encode, opcodeOf, op, wh, len, arg]

/-- Settles O15, line by line of the table of R70. -/
theorem assembledLinesEncodeInstructions : Obligations.AssembledLinesEncodeInstructions :=
  ⟨fun len _ hlen hiv => assemble_loadiv (len := some len) hlen hiv,
    fun _ hiv => assemble_loadiv (len := none) (by decide) hiv,
    rfl, rfl, rfl, rfl,
    fun _ hn => assemble_advance hn,
    fun _ lower upper =>
      ⟨assemble_seek .start lower upper rfl rfl, assemble_seek .current lower upper rfl rfl,
        assemble_seek .unrecognised2 lower upper rfl rfl,
        assemble_seek .unrecognised3 lower upper rfl rfl⟩,
    assemble_cmd⟩

/-- Settles O10: a reserved opcode is the one thing that does not decode. -/
theorem reservedOpcodesAreIllegal : Obligations.ReservedOpcodesAreIllegal := by
  refine ⟨fun c s reserved => runCommand_of_error (decode_reserved reserved) s, fun c => ?_⟩
  cases hd : decode c with
  | ok i => exact .inl ⟨i, rfl⟩
  | error e => exact .inr (reserved_of_decode_error hd)

/-- Settles O14: the lines by their encodings (R70), the words by the decoder. -/
theorem workedEncodings : Obligations.WorkedEncodings :=
  ⟨assemble_seek .current (by decide) (by decide) rfl rfl,
    assemble_loadiv (by decide) (by decide), rfl, rfl, rfl, rfl⟩

/-- Settles O16: the two lines have the same range and the same word (R71). -/
theorem updateAssemblesAsAdvance : Obligations.UpdateAssemblesAsAdvance := fun _ => rfl

end Sys2Proof.Proofs

/-! ## The data of a response -/

namespace Sys2Proof.Safety

open Sys2Proof
open Sys2Proof.Machine

/-- Only an `OK` response carries data (R62). -/
theorem legalResponse_data {r : Response} (legal : legalResponse r = true)
    (refused : r.status ≠ .ok) : r.data = 0 := by
  unfold legalResponse at legal
  split at legal
  case h_1 ok _ => exact absurd ok refused
  case h_2 ok _ => exact absurd ok refused
  case h_10 => cases legal
  all_goals exact eq_of_beq legal

/-- Only `GETIV` and the two queries whose answer is 1 give data (R62). -/
theorem executes_data_zero {i : Instr} {s t : State} {r : Response} (h : Executes s i t)
    (rsp : t.rsp = some r) (notGetiv : i ≠ .getiv) (notGetmode : i ≠ .getmode)
    (notSupseek : i ≠ .supseek) : r.data = 0 := by
  cases h with
  | tellsMode => exact absurd rfl notGetmode
  | tellsSeeking => exact absurd rfl notSupseek
  | tellsIv => exact absurd rfl notGetiv
  | _ => cases rsp; rfl

end Sys2Proof.Safety

namespace Sys2Proof.Proofs

open Sys2Proof
open Sys2Proof.Machine
open Sys2Proof.Safety

/-- Settles O36: responses that are not `OK` by their legality, the others by the rule that gave
them. -/
theorem responseData : Obligations.ResponseData := by
  intro c s t r h rsp
  have noData : r.status ≠ .ok → r.data = 0 := by
    obtain ⟨q, hq, legal⟩ := runCommand_legalResponse h
    cases rsp.symm.trans hq
    exact legalResponse_data legal
  refine ⟨noData, ?_⟩
  rcases runCommand_cases h with ⟨i, hd, he⟩ | ⟨e, hd, rfl⟩
  · simp only [hd, ne_eq, Except.ok.injEq]
    refine ⟨?_, ?_, ?_, ?_, executes_data_zero he rsp⟩
    · rintro rfl ok
      cases he with
      | tellsIv => cases rsp; exact currentIv_eq s
      | getivLacksEngine => cases rsp; cases ok
    · rintro rfl; cases he; cases rsp; rfl
    · rintro rfl; cases he; cases rsp; rfl
    · rintro rfl; cases he; cases rsp; rfl
  · cases rsp
    simp [hd]

end Sys2Proof.Proofs

/-! ## The algebra of the adder and the block counts -/

namespace Sys2Proof.Machine

open Sys2Proof

/-- The value of a counter is the sum of its words, each by the weight of its place (R81). -/
theorem join_toNat_eq_sum (c : Counter) :
    (join c).toNat = ∑ i ∈ Finset.range 8, (c.word i).toNat * 65536 ^ (7 - i) := by
  rw [join_toNat]
  simp only [Finset.sum_range_succ, Finset.sum_range_zero, Counter.word]
  omega

/-- A counter is known by its value, so an equation of counters may be proved on values (R81). -/
theorem join_injective : Function.Injective join := Function.LeftInverse.injective split_join

theorem add128w_comm (a b : Counter) : add128w a b = add128w b a :=
  join_injective (by simp only [join_add128w, BitVec.add_comm])

theorem add128w_assoc (a b c : Counter) :
    add128w (add128w a b) c = add128w a (add128w b c) :=
  join_injective (by simp only [join_add128w, BitVec.add_assoc])

theorem add128w_split_zero (a : Counter) : add128w a (split 0) = a :=
  join_injective (by rw [join_add128w, join_split]; exact BitVec.add_zero _)

/-- Two values added one after the other are one value added, their sum (R85). -/
theorem add128w_split_split (a : Counter) (v w : BitVec 128) :
    add128w (add128w a (split v)) (split w) = add128w a (split (v + w)) :=
  join_injective (by simp only [join_add128w, join_split, BitVec.add_assoc])

/-- So it is for any list of block counts (R85). -/
theorem foldl_add128w_split (ns : List (BitVec 128)) (a : Counter) :
    ns.foldl (fun acc n => add128w acc (split n)) a =
      add128w a (split (BitVec.ofNat 128 (ns.map BitVec.toNat).sum)) := by
  induction ns generalizing a with
  | nil => exact (add128w_split_zero a).symm
  | cons n ns ih =>
    rw [List.foldl_cons, ih, add128w_split_split, List.map_cons, List.sum_cons, BitVec.ofNat_add,
      BitVec.ofNat_toNat, BitVec.setWidth_eq]

/-- A carry out of a sum of this size is one bit (R83). -/
theorem carryOf_le_one {sum : Nat} (h : sum ≤ 131071) : carryOf sum ≤ 1 := by
  unfold carryOf
  omega

/-- Two words and a one-bit carry sum to at most `2 * 65535 + 1` (R83). -/
theorem wordSum_le (x y : Word) {carry : Nat} (h : carry ≤ 1) : wordSum x y carry ≤ 131071 := by
  have := x.isLt
  have := y.isLt
  unfold wordSum
  omega

/-- The bound of R83 passes from each word to the next more significant one, with the carry. -/
theorem wordSums_le (a b : Counter) :
    let s := wordSums a b
    ∀ sum ∈ [s.s0, s.s1, s.s2, s.s3, s.s4, s.s5, s.s6, s.s7], sum ≤ 131071 := by
  have b7 : (wordSums a b).s7 ≤ 131071 := wordSum_le _ _ (Nat.zero_le 1)
  have b6 : (wordSums a b).s6 ≤ 131071 := wordSum_le _ _ (carryOf_le_one b7)
  have b5 : (wordSums a b).s5 ≤ 131071 := wordSum_le _ _ (carryOf_le_one b6)
  have b4 : (wordSums a b).s4 ≤ 131071 := wordSum_le _ _ (carryOf_le_one b5)
  have b3 : (wordSums a b).s3 ≤ 131071 := wordSum_le _ _ (carryOf_le_one b4)
  have b2 : (wordSums a b).s2 ≤ 131071 := wordSum_le _ _ (carryOf_le_one b3)
  have b1 : (wordSums a b).s1 ≤ 131071 := wordSum_le _ _ (carryOf_le_one b2)
  have b0 : (wordSums a b).s0 ≤ 131071 := wordSum_le _ _ (carryOf_le_one b1)
  simp only [List.forall_mem_cons]
  exact ⟨b0, b1, b2, b3, b4, b5, b6, b7, by simp⟩

/-- `2 ^ 128` wraps to zero, so `2 ^ 128 - 1` computes without the power. -/
theorem two_pow_128 : (2 ^ 128 : BitVec 128) = 0 := by
  apply BitVec.eq_of_toNat_eq
  rw [BitVec.toNat_pow]
  rfl

end Sys2Proof.Machine

namespace Sys2Proof.Proofs

open Sys2Proof
open Sys2Proof.Machine

/-- Settles O17, from the words of `split` and the weights of `join`. -/
theorem splitAndJoinAreInverse : Obligations.SplitAndJoinAreInverse :=
  ⟨fun v _ hi => split_word v hi, join_toNat_eq_sum, join_split, split_join⟩

/-- What a pending response reports of its command: all of it but the data (R160). -/
def verdict (s : State) : Option (Status × Cause) := s.rsp.map fun r => (r.status, r.cause)

theorem verdict_respond (status : Status) (cause : Cause) (data : BitVec 128) (s : State) :
    verdict (respond status cause data s) = some (status, cause) := rfl

/-- No rule reads a counter to choose between its answers: with other counters the same rule
applies, and only the data of a `GETIV` can differ (R84). -/
theorem executes_verdict {i : Instr} {s t : State} (h : Executes s i t) (base ofs : Counter) :
    ∃ u, exec i (withCounters base ofs s) = .next u ∧ verdict t = verdict u := by
  cases h with
  | constructs iv => exact ⟨_, exec_loadiv_16 iv _, rfl⟩
  | refusesLength iv bad => exact ⟨_, exec_loadiv_of_ne bad iv _, rfl⟩
  | tellsMode => exact ⟨_, rfl, rfl⟩
  | tellsPadding => exact ⟨_, rfl, rfl⟩
  | tellsSeeking => exact ⟨_, rfl, rfl⟩
  | tellsIv engine =>
    refine ⟨_, exec_getiv_of_valid (s := withCounters base ofs s) engine, ?_⟩
    rw [verdict_respond, verdict_respond]
  | getivLacksEngine lacks => exact ⟨_, exec_getiv_of_noEngine lacks, rfl⟩
  | advances n engine =>
    exact ⟨_, exec_advance_of_valid (s := withCounters base ofs s) engine n, rfl⟩
  | advanceLacksEngine n lacks =>
    exact ⟨_, exec_advance_of_noEngine (s := withCounters base ofs s) lacks n, rfl⟩
  | seeks engine accepted =>
    exact ⟨_, exec_seek_of_accepted (s := withCounters base ofs s) engine accepted, rfl⟩
  | refusesSeek engine refused =>
    exact ⟨_, exec_seek_of_refused (s := withCounters base ofs s) engine refused, rfl⟩
  | seekLacksEngine whence offset lacks =>
    exact ⟨_, exec_seek_of_noEngine (s := withCounters base ofs s) lacks whence offset, rfl⟩

/-- Settles O20: the value by the adder's refinement, status and cause since the same rule applies
whatever the counters hold. -/
theorem adderIsAdditionModulo : Obligations.AdderIsAdditionModulo := by
  refine ⟨fun a b => by rw [join_add128w, BitVec.toNat_add], fun i s base ofs => ?_⟩
  obtain ⟨t, ht, he⟩ := exec_executes i s
  obtain ⟨u, hu, same⟩ := executes_verdict he base ofs
  obtain ⟨-, ⟨r, hr⟩, -⟩ := exec_channels ht
  obtain ⟨-, ⟨q, hq⟩, -⟩ := exec_channels hu
  have agree : r.status = q.status ∧ r.cause = q.cause := by simpa [verdict, hr, hq] using same
  exact ⟨t, u, r, q, ht, hu, hr, hq, agree⟩

/-- Settles O21: the laws of addition modulo `2^128`, carried over by the injectivity of `join`. -/
theorem adderLaws : Obligations.AdderLaws := by
  refine ⟨add128w_comm, add128w_assoc, add128w_split_zero, fun a ns => ?_⟩
  rw [foldl_add128w_split, ← BitVec.toNat_ofNat, BitVec.ofNat_toNat, BitVec.setWidth_eq]

/-- Settles O22, from `NB` and `PARTIAL` as arithmetic (R88) and the equation of `ADVANCE`. -/
theorem advanceBlocksRoundUp : Obligations.AdvanceBlocksRoundUp := by
  refine ⟨fun bytes => ?_, fun bytes s engine => ⟨_, exec_advance_of_valid engine bytes, rfl⟩⟩
  have range := bytes.isLt
  rw [advanceBlocks_toNat, isPartial_eq, decide_eq_true_eq]
  exact ⟨rfl, by omega, fun whole => by omega, Iff.rfl⟩

/-- Settles O23: a non-negative offset is its own unsigned value, below `2^127`, and passes the
checks of `SEEK` when it is aligned. -/
theorem seekBlocksAreExact : Obligations.SeekBlocksAreExact := by
  intro offset nonneg aligned
  obtain ⟨value, bound⟩ : offset.toInt = offset.toNat ∧ offset.toNat < 2 ^ 127 := by
    rcases toInt_by_sign offset with ⟨-, value, bound⟩ | ⟨-, value, bound⟩ <;> omega
  have field : (seekBlocks offset).toNat = (offset.extractLsb' 4 123).toNat := by
    rw [seekBlocks_toNat, BitVec.extractLsb'_toNat, Nat.shiftRight_eq_div_pow]
  have count : (seekBlocks offset).toNat = offset.toNat / 16 := by
    rw [seekBlocks_toNat]
    omega
  refine ⟨by omega, by omega, field, by omega, fun s engine => ?_⟩
  have current : seekRefusal .current offset = none := by
    rw [seekRefusal_current aligned, if_neg (not_lt.mpr nonneg)]
  have start : seekRefusal .start offset = none := by
    rw [seekRefusal_start aligned, if_neg (not_lt.mpr nonneg)]
  exact ⟨_, _, exec_seek_of_accepted engine current, exec_seek_of_accepted engine start, rfl, rfl⟩

/-- Settles O19, by the bound that passes from word to word, the longest ripple by evaluation. -/
theorem carriesAreOneBit : Obligations.CarriesAreOneBit := by
  refine ⟨fun a b sum member => ?_, ?_⟩
  · have bound : sum ≤ 131071 := wordSums_le a b sum member
    exact ⟨bound, Nat.le_one_iff_eq_zero_or_eq_one.mp (carryOf_le_one bound)⟩
  · rw [two_pow_128]
    decide

end Sys2Proof.Proofs

/-! ## Construction: `LOADIV` -/

namespace Sys2Proof.Machine

open Sys2Proof

/-- A construction writes the whole engine, so the old one leaves no trace (R102). -/
theorem construct_forgets_engine (iv : BitVec 128) (s : State) (base ofs : Counter) (valid : Bool) :
    construct iv { s with base := base, ofs := ofs, valid := valid } = construct iv s := rfl

end Sys2Proof.Machine

namespace Sys2Proof.Proofs

open Sys2Proof
open Sys2Proof.Machine

/-- Settles O24, from the opcode's row and the two equations of `LOADIV` (R100). -/
theorem loadivConstructsEngine : Obligations.LoadivConstructsEngine :=
  ⟨fun _ opcode => decode_of_loadiv opcode, exec_loadiv_16,
    fun _ iv s bad => exec_loadiv_of_ne bad iv s⟩

/-- Settles O25: the refusal is the same next state for every IV, and a refusal writes no register
(R101). -/
theorem refusedLoadivWritesNothing : Obligations.RefusedLoadivWritesNothing := by
  intro len iv other s bad
  exact ⟨raise .invalidInput .badLen s, exec_loadiv_of_ne bad iv s,
    raise_base .., raise_ofs .., raise_valid .., exec_loadiv_of_ne bad other s⟩

/-- Settles O26, from `construct_forgets_engine`: the response does not depend on the registers. -/
theorem reconstructionForgetsOldEngine : Obligations.ReconstructionForgetsOldEngine := by
  intro iv s base ofs valid
  refine ⟨?_, _, exec_loadiv_16 iv s, ?_⟩
  · rw [exec_loadiv_16, exec_loadiv_16, construct_forgets_engine]
  · simp

end Sys2Proof.Proofs

/-! ## The accessors: `GETMODE`, `REQPAD`, `SUPSEEK` and `GETIV` -/

namespace Sys2Proof.Machine

open Sys2Proof

theorem exec_getmode (s : State) : exec .getmode s = .next (respond .ok .none 0x01 s) := rfl

theorem exec_reqpad (s : State) : exec .reqpad s = .next (respond .ok .none 0 s) := rfl

theorem exec_supseek (s : State) : exec .supseek s = .next (respond .ok .none 1 s) := rfl

/-- The Current IV by the values of the two counters (R84, R113). -/
theorem currentIv_eq_ofNat (s : State) :
    currentIv s = BitVec.ofNat 128 (((join s.base).toNat + (join s.ofs).toNat) % 2 ^ 128) := by
  rw [currentIv_eq, ← BitVec.toNat_add, BitVec.ofNat_toNat, BitVec.setWidth_eq]

end Sys2Proof.Machine

namespace Sys2Proof.Proofs

open Sys2Proof
open Sys2Proof.Machine

/-- Settles O28, from the opcode's row and the two equations of `GETIV`, the data by the adder's
refinement of addition (R113). -/
theorem getivAnswersCurrentIv : Obligations.GetivAnswersCurrentIv := by
  refine ⟨fun _ opcode => decode_of_getiv opcode, fun s engine => ?_,
    fun s lacks => exec_getiv_of_noEngine lacks⟩
  rw [exec_getiv_of_valid engine, currentIv_eq_ofNat]
  rfl

/-- Settles O27, from the opcodes' rows and the equations of the three queries (R110 to R112). -/
theorem modeQueriesAnswerConstants : Obligations.ModeQueriesAnswerConstants :=
  ⟨fun _ => ⟨decode_of_getmode, decode_of_reqpad, decode_of_supseek⟩,
    fun s => ⟨exec_getmode s, exec_reqpad s, exec_supseek s⟩⟩

end Sys2Proof.Proofs

/-! ## Moving the Offset Counter: `ADVANCE` and `SEEK` -/

namespace Sys2Proof.Machine

open Sys2Proof

@[simp] theorem join_zeroCounter : join zeroCounter = 0 := by decide

/-- A value added to a counter, on values (R84). -/
theorem add128w_split (a : Counter) (v : BitVec 128) : add128w a (split v) = split (join a + v) :=
  join_injective (by simp)

/-- `NB` as a 128-bit value (R88). -/
theorem advanceBlocks_eq_ofNat (bytes : BitVec 128) :
    advanceBlocks bytes = BitVec.ofNat 128 ((bytes.toNat + 15) / 16) := by
  rw [← advanceBlocks_toNat, BitVec.ofNat_toNat, BitVec.setWidth_eq]

/-- The cause of an `ADVANCE` tells whether it rounded (R130, R131). -/
theorem advanceCause_eq_ite (bytes : BitVec 128) :
    advanceCause bytes = if bytes.toNat % 16 = 0 then .none else .partialBlock := by
  by_cases whole : bytes.toNat % 16 = 0 <;> simp [advanceCause, isPartial_eq, whole]

/-- The signed and the unsigned reading of an offset agree about its alignment (R136). -/
theorem toInt_aligned_iff (offset : BitVec 128) :
    offset.toInt % 16 = 0 ↔ offset.toNat % 16 = 0 := by
  rw [← offset_low_bits_zero_iff, low_bits_zero_iff]

/-- What it takes to pass all checks of `SEEK` (R135, R136). -/
theorem seekRefusal_eq_none_iff {whence : Whence} {offset : BitVec 128} :
    seekRefusal whence offset = none ↔
      offset.toInt % 16 = 0 ∧ 0 ≤ offset.toInt ∧ (whence = .start ∨ whence = .current) := by
  by_cases aligned : offset.toInt % 16 = 0
  · cases whence with
    | start => simp [seekRefusal_start aligned, aligned]
    | current => simp [seekRefusal_current aligned, aligned]
    | unrecognised2 => simp [seekRefusal_of_unrecognised aligned (.inl rfl)]
    | unrecognised3 => simp [seekRefusal_of_unrecognised aligned (.inr rfl)]
  · simp [seekRefusal_of_misaligned aligned, aligned]

theorem seekTarget_start (offset : BitVec 128) (ofs : Counter) :
    seekTarget .start offset ofs = split (seekBlocks offset) :=
  join_injective (by simp [seekTarget])

theorem seekTarget_current (offset : BitVec 128) (ofs : Counter) :
    seekTarget .current offset ofs = split (join ofs + seekBlocks offset) :=
  add128w_split ofs _

section AcceptedSeeks

variable {s : State} {offset : BitVec 128} (engine : s.valid = true)
  (aligned : offset.toInt % 16 = 0) (nonneg : 0 ≤ offset.toInt)
include engine aligned nonneg

theorem exec_seek_start_of_accepted :
    exec (.seek .start offset) s =
      .next (respond .ok .none 0 (writeOfs (split (BitVec.ofInt 128 (offset.toInt / 16))) s)) := by
  rw [exec_seek_of_accepted engine (seekRefusal_eq_none_iff.mpr ⟨aligned, nonneg, .inl rfl⟩),
    seekTarget_start, seekBlocks_eq nonneg]

theorem exec_seek_current_of_accepted :
    exec (.seek .current offset) s =
      .next (respond .ok .none 0
        (writeOfs (split (join s.ofs + BitVec.ofInt 128 (offset.toInt / 16))) s)) := by
  rw [exec_seek_of_accepted engine (seekRefusal_eq_none_iff.mpr ⟨aligned, nonneg, .inr rfl⟩),
    seekTarget_current, seekBlocks_eq nonneg]

end AcceptedSeeks

/-- The offset `16 * k` is not negative as an operand, so it is its own unsigned value (R137). -/
theorem toInt_offset_of_block {k : Nat} (hk : k < 2 ^ 123) :
    (BitVec.ofNat 128 (16 * k)).toInt = 16 * k := by
  have unsigned : (BitVec.ofNat 128 (16 * k)).toNat = 16 * k := by
    rw [BitVec.toNat_ofNat]
    omega
  rcases toInt_by_sign (BitVec.ofNat 128 (16 * k)) with ⟨-, value, -⟩ | ⟨-, -, bound⟩ <;> omega

/-- `SEEK 16*k, START` sets `OFS` to `k` (R137). -/
theorem exec_seek_block {k : Nat} (hk : k < 2 ^ 123) {s : State} (engine : s.valid = true) :
    exec (.seek .start (BitVec.ofNat 128 (16 * k))) s =
      .next (respond .ok .none 0 (writeOfs (split (BitVec.ofNat 128 k)) s)) := by
  have offset := toInt_offset_of_block hk
  have blocks : (16 * (k : Int)) / 16 = k := Int.mul_ediv_cancel_left _ (by decide)
  rw [exec_seek_start_of_accepted engine (by omega) (by omega), offset, blocks,
    BitVec.ofInt_natCast]

end Sys2Proof.Machine

namespace Sys2Proof.Safety

open Sys2Proof
open Sys2Proof.Machine

/-- A list of `ADVANCE`s moves `OFS` on by the sum of their block counts (R132). -/
theorem callAll_advances (ns : List (BitVec 128)) {s : State} (engine : s.valid = true) :
    ∃ t, callAll (ns.map fun n => encode (.advance n)) s = .next t ∧
      t.valid = true ∧ t.base = s.base ∧
      join t.ofs = join s.ofs + BitVec.ofNat 128 (blockSum ns) := by
  induction ns generalizing s with
  | nil => exact ⟨s, rfl, engine, rfl, by simp⟩
  | cons n ns ih =>
    have advanced := callAll_encode_cons (exec_advance_of_valid engine n)
      (ns.map fun n => encode (.advance n))
    obtain ⟨t, ht, engineT, baseT, ofsT⟩ := ih (s := takePending (respond .ok (advanceCause n) 0
      (writeOfs (add128w s.ofs (split (advanceBlocks n))) s))) (by simp [engine])
    refine ⟨t, advanced.trans ht, engineT, by simp [baseT], ?_⟩
    simp [ofsT, advanceBlocks_eq_ofNat, BitVec.ofNat_add, BitVec.add_assoc]

/-- The order of the byte counts does not matter (R132). -/
theorem blockSum_perm {ns ms : List (BitVec 128)} (h : ns.Perm ms) : blockSum ns = blockSum ms :=
  (h.map _).sum_eq

/-- Whole blocks are not rounded, so they add up to the bytes (R132). -/
theorem sixteen_mul_blockSum_of_whole {ns : List (BitVec 128)}
    (whole : ∀ n ∈ ns, n.toNat % 16 = 0) : 16 * blockSum ns = (ns.map BitVec.toNat).sum := by
  induction ns with
  | nil => rfl
  | cons n ns ih =>
    obtain ⟨now, rest⟩ := List.forall_mem_cons.mp whole
    have := ih rest
    rw [blockSum_cons, List.map_cons, List.sum_cons]
    omega

theorem blockSum_replicate_sixteen (k : Nat) : blockSum (List.replicate k 16) = k := by
  induction k with
  | zero => rfl
  | succ k ih => rw [List.replicate_succ, blockSum_cons, ih, Nat.add_comm]; rfl

/-- The last response taken after a `GETIV` is the Current IV (R113). -/
theorem callAll_getiv {s : State} (engine : s.valid = true) :
    ∃ t, callAll [encode .getiv] s = .next t ∧
      t.taken.getLast? = some ⟨.ok, .none, join s.base + join s.ofs⟩ := by
  refine ⟨_, callAll_encode_cons (exec_getiv_of_valid engine) [], ?_⟩
  simp [takePending_of_rsp, currentIv_eq]

/-- The IV of block `k` by seeking to it (R137). -/
theorem callAll_seek_getiv {k : Nat} (hk : k < 2 ^ 123) {s : State} (engine : s.valid = true) :
    ∃ t, callAll [encode (.seek .start (BitVec.ofNat 128 (16 * k))), encode .getiv] s = .next t ∧
      t.taken.getLast? = some ⟨.ok, .none, join s.base + BitVec.ofNat 128 k⟩ := by
  have sought := callAll_encode_cons (exec_seek_block hk engine) [encode .getiv]
  obtain ⟨t, told, last⟩ := callAll_getiv
    (s := takePending (respond .ok .none 0 (writeOfs (split (BitVec.ofNat 128 k)) s)))
    (by simp [engine])
  exact ⟨t, sought.trans told, by simp [last]⟩

/-- The IV of block `k` by advancing to it from a fresh construction (R137). -/
theorem callAll_loadiv_advances_getiv (k : Nat) (iv : BitVec 128) (s : State) :
    ∃ t, callAll (encode (.loadiv 16 iv) ::
        (List.replicate k (encode (.advance 16)) ++ [encode .getiv])) s = .next t ∧
      t.taken.getLast? = some ⟨.ok, .none, iv + BitVec.ofNat 128 k⟩ := by
  have built := callAll_encode_cons (exec_loadiv_16 iv s)
    (List.replicate k (encode (.advance 16)) ++ [encode .getiv])
  obtain ⟨u, advanced, engine, base, ofs⟩ := callAll_advances (List.replicate k 16)
    (s := takePending (respond .ok .none 0 (construct iv s))) (by simp)
  rw [List.map_replicate] at advanced
  rw [blockSum_replicate_sixteen] at ofs
  obtain ⟨t, told, last⟩ := callAll_getiv engine
  exact ⟨t, built.trans ((callAll_append advanced _).trans told), by simp [last, base, ofs]⟩

end Sys2Proof.Safety

namespace Sys2Proof.Proofs

open Sys2Proof
open Sys2Proof.Machine
open Sys2Proof.Safety

/-- Settles O41: a command by the row of the table it follows, a reset by the state it leads to. -/
theorem commandsFollowStateTable : Obligations.CommandsFollowStateTable := by
  refine ⟨fun c s => ?_, fun s hr => ⟨_, step_of_rst hr, ?_, rfl, fun _ => rfl⟩⟩
  · obtain ⟨t, ht⟩ := runCommand_next c s
    obtain ⟨inFlight, -, inputs, taken⟩ := runCommand_channels ht
    obtain ⟨r, rsp, row⟩ := tableServe_of_runCommand ht
    exact ⟨t, ht, by rw [row], by rw [row, rsp], inFlight, inputs, taken⟩
  · simp [tableView]

/-- Settles O29, from the opcode's row and the two equations of `ADVANCE` (R130, R131). -/
theorem advanceAddsBlocks : Obligations.AdvanceAddsBlocks := by
  refine ⟨fun _ opcode => decode_of_advance opcode, fun bytes s engine => ?_,
    fun bytes s lacks => exec_advance_of_noEngine lacks bytes⟩
  have moved : add128w s.ofs (split (advanceBlocks bytes)) =
      split (BitVec.ofNat 128 (((join s.ofs).toNat + (bytes.toNat + 15) / 16) % 2 ^ 128)) := by
    rw [add128w_split, ← advanceBlocks_toNat, ← BitVec.toNat_add, BitVec.ofNat_toNat,
      BitVec.setWidth_eq]
  rw [exec_advance_of_valid engine, moved, advanceCause_eq_ite]
  rfl

/-- Settles O30: a refusal by the first check that fails, an accepted `SEEK` by its equation. -/
theorem seekFollowsItsRule : Obligations.SeekFollowsItsRule := by
  refine ⟨fun _ opcode => decode_of_seek opcode,
    fun whence offset s lacks => exec_seek_of_noEngine lacks whence offset,
    fun whence offset s engine => ⟨fun misaligned => ?_, fun aligned unrecognised => ?_, ?_, ?_,
      ?_, ?_⟩⟩
  · exact exec_seek_of_refused engine (seekRefusal_of_misaligned misaligned)
  · exact exec_seek_of_refused engine (seekRefusal_of_unrecognised aligned unrecognised)
  · rintro aligned rfl negative
    exact exec_seek_of_refused engine ((seekRefusal_start aligned).trans (if_pos negative))
  · rintro aligned rfl negative
    exact exec_seek_of_refused engine ((seekRefusal_current aligned).trans (if_pos negative))
  · rintro aligned rfl nonneg
    exact exec_seek_start_of_accepted engine aligned nonneg
  · rintro aligned rfl nonneg
    exact exec_seek_current_of_accepted engine aligned nonneg

/-- Settles O31: an accepted `SEEK` is aligned, and a refused one writes nothing. -/
theorem seekNeverRounds : Obligations.SeekNeverRounds := by
  intro whence offset s t h misaligned
  cases executes_of_exec h with
  | seeks _ accepted =>
    obtain ⟨aligned, -⟩ := seekRefusal_eq_none_iff.mp accepted
    exact absurd ((toInt_aligned_iff offset).mp aligned) misaligned
  | refusesSeek => exact ⟨rfl, _, rfl, by simp⟩
  | seekLacksEngine => exact ⟨rfl, _, rfl, by simp⟩

/-- Settles O49, from the sum of the block counts and its two properties. -/
theorem advanceSequencesAdd : Obligations.AdvanceSequencesAdd := by
  refine ⟨fun ns s engine => ?_, fun _ _ => blockSum_perm, fun ns whole => ?_⟩
  · obtain ⟨t, ht, engineT, base, ofs⟩ := callAll_advances ns engine
    exact ⟨t, ht, engineT, base, by simp [ofs]⟩
  · rw [← sixteen_mul_blockSum_of_whole whole, Nat.mul_div_cancel_left _ (by decide)]

/-- Settles O50: an accepted absolute `SEEK` stores its block count, and the last responses of the
two lists of calls are the same. -/
theorem seekEqualsAdvancing : Obligations.SeekEqualsAdvancing := by
  refine ⟨fun offset s t r h rsp ok => ?_, fun k iv s u hk engine base => ?_⟩
  · cases executes_of_exec h with
    | seeks _ accepted =>
      obtain ⟨-, nonneg, -⟩ := seekRefusal_eq_none_iff.mp accepted
      simp only [respond_ofs, writeOfs_ofs, seekTarget_start, join_split, seekBlocks_toNat]
      rcases toInt_by_sign offset with ⟨-, -, bound⟩ | ⟨-, value, -⟩ <;> omega
    | refusesSeek => cases rsp; cases ok
    | seekLacksEngine => cases rsp; cases ok
  · obtain ⟨s', advanced, lastS⟩ := callAll_loadiv_advances_getiv k iv s
    obtain ⟨u', sought, lastU⟩ := callAll_seek_getiv hk engine
    rw [base, join_split] at lastU
    exact ⟨s', u', advanced, sought, lastS.trans lastU.symm, lastS⟩

end Sys2Proof.Proofs

/-! ## The status and cause of a response -/

namespace Sys2Proof.Machine

open Sys2Proof

section Kinds

variable {i : Instr} {s t : State} {r : Response}

/-- R166: `NO_ENGINE` is answered only without an engine, and only to the commands that need one. -/
theorem Executes.of_noEngine (h : Executes s i t) (rsp : t.rsp = some r)
    (status : r.status = .noEngine) :
    s.valid = false ∧
      (i = .getiv ∨ (∃ bytes, i = .advance bytes) ∨ ∃ whence offset, i = .seek whence offset) := by
  cases h with
  | getivLacksEngine lacks => exact ⟨lacks, .inl rfl⟩
  | advanceLacksEngine bytes lacks => exact ⟨lacks, .inr (.inl ⟨bytes, rfl⟩)⟩
  | seekLacksEngine whence offset lacks => exact ⟨lacks, .inr (.inr ⟨whence, offset, rfl⟩)⟩
  | _ => cases rsp; cases status

/-- R167 -/
theorem Executes.of_invalidInput (h : Executes s i t) (rsp : t.rsp = some r)
    (status : r.status = .invalidInput) :
    r.cause = .badLen ∧ ∃ len iv, i = .loadiv len iv ∧ len ≠ 16 := by
  cases h with
  | refusesLength iv bad => cases rsp; exact ⟨rfl, _, iv, rfl, bad⟩
  | _ => cases rsp; cases status

/-- R168 -/
theorem Executes.of_unsupported (h : Executes s i t) (rsp : t.rsp = some r)
    (status : r.status = .unsupported) :
    (r.cause = .align ∨ r.cause = .whence ∨ r.cause = .negAbs ∨ r.cause = .negRel) ∧
      ∃ whence offset, i = .seek whence offset := by
  cases h with
  | refusesSeek _ refused => cases rsp; exact ⟨seekRefusal_causes refused, _, _, rfl⟩
  | _ => cases rsp; cases status

/-- R169 -/
theorem Executes.of_partialBlock (h : Executes s i t) (rsp : t.rsp = some r)
    (cause : r.cause = .partialBlock) :
    r.status = .ok ∧ ∃ bytes, i = .advance bytes ∧
      t.ofs = add128w s.ofs (split (advanceBlocks bytes)) := by
  cases h with
  | advances bytes _ => cases rsp; exact ⟨rfl, bytes, rfl, rfl⟩
  | refusesSeek _ refused =>
    cases rsp
    cases cause
    simpa using seekRefusal_causes refused
  | _ => cases rsp; cases cause

/-- R161: a rule that does not answer `OK` only raises its error. -/
theorem Executes.eq_raise (h : Executes s i t) (rsp : t.rsp = some r) (refused : r.status ≠ .ok) :
    t = raise r.status r.cause s := by
  cases h with
  | refusesLength | getivLacksEngine | advanceLacksEngine | refusesSeek | seekLacksEngine =>
    cases rsp; rfl
  | _ => cases rsp; exact absurd rfl refused

end Kinds

end Sys2Proof.Machine

namespace Sys2Proof.Safety

open Sys2Proof
open Sys2Proof.Machine

/-- The codes of the legal pairs of status and cause, row by row (R160, R170). -/
theorem legalResponse_codes {r : Response} (legal : legalResponse r = true) :
    (statusBits r.status).toNat < 5 ∧ (causeBits r.cause).toNat < 7 ∧
    (causeBits r.cause = 5 → statusBits r.status = 0) ∧
    (causeBits r.cause = 6 → statusBits r.status = 1) ∧
    (causeBits r.cause = 1 ∨ causeBits r.cause = 2 ∨ causeBits r.cause = 3 ∨
      causeBits r.cause = 4 → statusBits r.status = 2) := by
  unfold legalResponse at legal
  split at legal
  case h_10 => cases legal
  all_goals
    rename_i status cause
    rw [status, cause]
    decide

end Sys2Proof.Safety

namespace Sys2Proof.Proofs

open Sys2Proof
open Sys2Proof.Machine
open Sys2Proof.Safety

/-- Settles O5: each of the things a step can do has its next state. -/
theorem everyStepAnswersNext : Obligations.EveryStepAnswersNext := step_answers

/-- Settles O34, code by code (R160). -/
theorem statusAndCauseCodes : Obligations.StatusAndCauseCodes :=
  ⟨rfl, rfl, rfl, rfl, rfl, rfl, rfl, rfl, rfl, rfl, rfl, rfl⟩

/-- Settles O32: the three equations without an engine, and that no other rule answers
`NO_ENGINE`. -/
theorem noEngineRefusals : Obligations.NoEngineRefusals := by
  refine ⟨fun s bytes offset whence lacks => ⟨exec_getiv_of_noEngine lacks,
    exec_advance_of_noEngine lacks bytes, exec_seek_of_noEngine lacks whence offset⟩, ?_⟩
  intro i s t r other h rsp status
  obtain ⟨-, needsEngine⟩ := (executes_of_exec h).of_noEngine rsp status
  rcases needsEngine with rfl | ⟨bytes, rfl⟩ | ⟨whence, offset, rfl⟩ <;> simp at other

/-- Settles O33, from the rules that give each kind; an illegal command gives none of them. -/
theorem errorKindsByCommand : Obligations.ErrorKindsByCommand := by
  intro c s t r h rsp
  rcases runCommand_cases h with ⟨i, hd, he⟩ | ⟨e, -, rfl⟩
  · simp only [hd, Except.ok.injEq]
    exact ⟨he.of_invalidInput rsp, he.of_unsupported rsp, he.of_partialBlock rsp⟩
  · cases rsp
    exact ⟨nofun, nofun, nofun⟩

/-- Settles O35: every response is a legal one. -/
theorem codesNeverProduced : Obligations.CodesNeverProduced := by
  intro c s t r h rsp
  obtain ⟨q, hq, legal⟩ := runCommand_legalResponse h
  cases rsp.symm.trans hq
  exact legalResponse_codes legal

/-- Settles O39: every command that is not answered `OK`, illegal ones among them, only raises its
error. -/
theorem errorsChangeNothing : Obligations.ErrorsChangeNothing := by
  intro c s t r h rsp refused
  rcases runCommand_cases h with ⟨i, -, he⟩ | ⟨e, -, rfl⟩
  · exact he.eq_raise rsp refused
  · cases rsp; rfl

end Sys2Proof.Proofs

/-! ## Reset, waiting, the end of a run, and the host's duty -/

namespace Sys2Proof.Safety

open Sys2Proof
open Sys2Proof.Machine

/-- Beyond the beats listed the outside is idle. -/
theorem currentBeat_mem_or_idle (s : State) :
    currentBeat s ∈ s.inputs ∨ currentBeat s = Beat.idle := by
  cases hi : s.inputs <;> simp [currentBeat, hi]

theorem runEnded_iff {s : State} :
    runEnded s = true ↔ (∀ b ∈ s.inputs, b.offer = none) ∧ s.inFlight = none ∧ s.rsp = none := by
  simp [runEnded, cmdReady, rspValid, and_assoc]

theorem currentBeat_offer_of_runEnded {s : State} (h : runEnded s = true) :
    (currentBeat s).offer = none := by
  rcases currentBeat_mem_or_idle s with listed | idle
  · exact (runEnded_iff.mp h).1 _ listed
  · rw [idle]; rfl

/-- An ended run stays ended as its beats pass. -/
theorem runEnded_nextBeat {s : State} (h : runEnded s = true) : runEnded (nextBeat s) = true := by
  obtain ⟨noOffer, hf, hp⟩ := runEnded_iff.mp h
  exact runEnded_iff.mpr ⟨fun b hb => noOffer b (List.mem_of_mem_tail hb), hf, hp⟩

/-- What a command does at once it does a beat later too (R203). -/
theorem runCommand_nextBeat {c : Command} {s u : State} (h : runCommand c s = .next u) :
    runCommand c (nextBeat s) = .next { u with inputs := s.inputs.tail } :=
  runCommand_ignores_outside c s u s.inFlight s.inputs.tail h

/-- A command in flight runs at the latest in the idle beat after all those listed, and does what it
would have done at once (R203, D21). -/
theorem runBeats_inFlight {c : Command} {s u : State} (hf : s.inFlight = some c)
    (hn : noReset s = true) (h : runCommand c s = .next u) :
    ∃ n ≤ s.inputs.length + 1, runBeats n s = .next { u with inputs := s.inputs.drop n } := by
  have hr := currentBeat_rst_of_noReset hn
  cases hb : (currentBeat s).busy with
  | false =>
    have ran := (step_of_inFlight hr hf hb).trans (runCommand_nextBeat h)
    exact ⟨1, by omega, by rw [runBeats_succ ran, List.drop_one]; rfl⟩
  | true =>
    have waited := step_of_busy hr hf hb
    have listed : currentBeat s ∈ s.inputs :=
      (currentBeat_mem_or_idle s).resolve_right fun idle => by simp [idle, Beat.idle] at hb
    have shorter : (nextBeat s).inputs.length < s.inputs.length := by
      simpa using List.length_pos_of_mem listed
    obtain ⟨n, hle, hrun⟩ := runBeats_inFlight (s := nextBeat s) hf (step_noReset waited hn)
      (runCommand_nextBeat h)
    rw [nextBeat_inputs, List.drop_tail] at hrun
    exact ⟨n + 1, by omega, (runBeats_succ waited n).trans hrun⟩
termination_by s.inputs.length

/-- The responses of the unit to a list of `ADVANCE`s with an engine (R130, R131). -/
def advanceExchanges (ns : List (BitVec 128)) : List (Command × Response) :=
  ns.map fun n => (encode (.advance n), ⟨.ok, advanceCause n, 0⟩)

/-- After a `PARTIAL` response the duty allows no `ADVANCE` (R196). -/
theorem dutyKept_true_advances_iff (ns : List (BitVec 128)) :
    dutyKept true (advanceExchanges ns) = true ↔ ns = [] := by
  cases ns <;> simp [advanceExchanges, dutyKept, isAdvance]

/-- The cause of an `ADVANCE` begins the duty exactly where it rounded (R131, R196). -/
theorem advanceCause_beq_partialBlock (bytes : BitVec 128) :
    (advanceCause bytes == .partialBlock) = decide (bytes.toNat % 16 ≠ 0) := by
  by_cases whole : bytes.toNat % 16 = 0 <;> simp [advanceCause_eq_ite, whole]

/-- Whether the duty still allows an `ADVANCE` after one depends on whether that one rounded (R131,
R196). -/
theorem dutyKept_false_advances_cons (n : BitVec 128) (ns : List (BitVec 128)) :
    dutyKept false (advanceExchanges (n :: ns)) =
      dutyKept (decide (n.toNat % 16 ≠ 0)) (advanceExchanges ns) := by
  simp [advanceExchanges, dutyKept, afterPartial, advanceCause_beq_partialBlock]

/-- While the duty is kept only the last `ADVANCE` can round, so the rounding happens once (R196). -/
theorem blockSum_of_dutyKept {ns : List (BitVec 128)}
    (duty : dutyKept false (advanceExchanges ns) = true) :
    blockSum ns = ((ns.map BitVec.toNat).sum + 15) / 16 := by
  induction ns with
  | nil => rfl
  | cons n ns ih =>
    rw [dutyKept_false_advances_cons] at duty
    rw [blockSum_cons, List.map_cons, List.sum_cons]
    by_cases whole : n.toNat % 16 = 0
    · rw [ih (by simpa [whole] using duty)]
      omega
    · obtain rfl : ns = [] := (dutyKept_true_advances_iff ns).mp (by simpa [whole] using duty)
      simp

end Sys2Proof.Safety

namespace Sys2Proof.Proofs

open Sys2Proof
open Sys2Proof.Machine
open Sys2Proof.Safety

/-- Settles O4: without reset a step keeps `VALID` or runs a command, and no command ends an engine. -/
theorem onlyResetEndsAnEngine : Obligations.OnlyResetEndsAnEngine := by
  intro s t h engine lost
  by_contra hr
  have kept : t.valid = true := by
    rcases step_keeps_registers_or_runs h (Bool.eq_false_of_not_eq_true hr) with
      ⟨-, -, valid⟩ | ⟨c, -, hc⟩
    · exact valid.trans engine
    · exact (runCommand_valid_iff hc).mpr (.inl engine)
  simp [lost] at kept

/-- Settles O44: the command in flight waits out the busy beats and then runs. -/
theorem acceptedCommandResponds : Obligations.AcceptedCommandResponds := by
  intro s c hf hn
  obtain ⟨u, r, hu, -, rsp, -⟩ := runCommand_answers c s
  obtain ⟨n, hle, hrun⟩ := runBeats_inFlight hf hn hu
  exact ⟨n, _, u, hle, hrun, hu, by simp [rsp], rfl⟩

/-- Settles O52: by the duty every `ADVANCE` but the last is of whole blocks. -/
theorem dutyMakesRoundingExact : Obligations.DutyMakesRoundingExact :=
  fun _ => blockSum_of_dutyKept

/-- Settles O53: with nothing offered, in flight or pending, only the beat passes. -/
theorem endedRunHoldsState : Obligations.EndedRunHoldsState := by
  intro s t ended hn h
  obtain ⟨-, hf, hp⟩ := runEnded_iff.mp ended
  have passed := step_of_noOffer (currentBeat_rst_of_noReset hn) hf hp
    (currentBeat_offer_of_runEnded ended)
  rw [h] at passed
  cases passed
  exact ⟨rfl, runEnded_nextBeat ended⟩

/-- Settles O3: the state of R35, whatever was in flight, and nothing more is taken. -/
theorem resetBeatGivesResetState : Obligations.ResetBeatGivesResetState :=
  fun _ hr =>
    ⟨_, step_of_rst hr, rfl, zeroCounter_word, zeroCounter_word, rfl, rfl, fun _ => rfl, rfl⟩

end Sys2Proof.Proofs
